-- ==== Sys2Proof/Word.lean ====
section
/-! DEFINITION. The word types of the stream core (00_scope.md R11; 30_encoding.md R51): the byte of the
stream, the 16-bit accumulator, the 64-bit packet word, and the two small words by which the host and the
state select an operation. Nothing here computes. -/

namespace Sys2Proof

/-- A byte: 8 bits, 0 to 255 (R11). -/
abbrev Byte := BitVec 8

/-- A value of the CRC accumulator `ACC`: `CRC_W` = 16 bits (R6, R16). -/
abbrev Acc := BitVec 16

/-- A 24-bit data field before sign extension (R53). -/
abbrev Field24 := BitVec 24

/-- One packet or window as the word `P = W[0] ‖ … ‖ W[7]`, first-arriving byte most significant (R53). -/
abbrev Packet := BitVec 64

/-- The event word `EV = rst ‖ tick ‖ in_valid ‖ in_data[7:0]` (R56). -/
abbrev EvWord := BitVec 11

/-- The select word `SEL = TPEND ‖ HAVE8 ‖ VALID` (R58). -/
abbrev SelWord := BitVec 3

end Sys2Proof
end

