-- ==== Sys2Proof/Config.lean ====
section
/-! DEFINITION. What is fixed for one machine: the hardwired constants of 00_scope.md R6, the three instance
parameters of R7 with their defaults and allowed ranges, and the free values (no body, nothing known of them)
for what the spec leaves unspecified. -/

namespace Sys2Proof.Config

/-- `PKT_LEN`: bytes in a packet and in the window (R6). -/
def pktLen : Nat := 8
/-- `CRC_INIT`: the accumulator before the first byte (R6, R68). -/
def crcInit : Acc := 0xFFFF#16
/-- `CRC_POLY`: XORed in after a shift whose lost bit was 1 (R6, R70). -/
def crcPoly : Acc := 0xA001#16
/-- `CRC_GOOD`: the CRC over all 8 bytes of a valid window (R6, R74). -/
def crcGood : Acc := 0x0000#16
/-- `PRI_OFF`: index of the first byte of the primary field (R6). -/
def priOff : Nat := 0
/-- `SEC_OFF`: index of the first byte of the secondary field (R6). -/
def secOff : Nat := 3
/-- `PRI_DIV`: divisor of the primary integer (R6, R111); applied by the consumer, never by the block. -/
def priDiv : Int := 1000
/-- `SEC_DIV`: divisor of the secondary integer (R6, R111). -/
def secDiv : Int := 10
/-- `DROP_LEN`: bytes removed on a checksum mismatch (R6, R89). -/
def dropLen : Nat := 1

/-- The instance parameters of R7. `none` stands for ∞ (unbounded). -/
structure Params where
  /-- `BUF_CAP`: most bytes the receive buffer holds. -/
  bufCap : Option Nat
  /-- `CNT_W`: bits of the success counter. -/
  cntW : Option Nat
  /-- `OUT_W`: bits of each decoded output. -/
  outW : Nat
deriving DecidableEq, Repr

/-- The value this spec takes for each parameter (R7, column `default`). -/
def Params.default : Params := { bufCap := some 8, cntW := some 32, outW := 32 }

/-- The allowed range of each parameter (R7): `BUF_CAP ≥ 8` or ∞, `CNT_W ≥ 1` or ∞, `OUT_W ≥ 24`. -/
def Params.wf (p : Params) : Bool :=
  (match p.bufCap with | some n => decide (8 ≤ n) | none => true) &&
  (match p.cntW with | some n => decide (1 ≤ n) | none => true) &&
  decide (24 ≤ p.outW)

/-- `2^CNT_W − 1`, the greatest counter value; `none` when the counter is unbounded (R117). -/
def Params.cntMax (p : Params) : Option Nat := p.cntW.map fun w => 2 ^ w - 1

/-- FREE VALUE (93_implementation_defined.md U9; R16, R29): what `ACC` holds once an evaluation of `CRC16`
inside a block step is over. Applied to State's counter `fresh`. Log entry 3. -/
opaque freeAcc : Nat → Acc

/-- FREE VALUE (U11; R29): what an output payload signal carries while its valid signal is 0.
The first argument numbers the signal. Log entry 4. -/
opaque freePayload : Nat → Nat → Int

end Sys2Proof.Config
end

