-- ==== Sys2Proof/Machine/Crc16.lean ====
section
/-! DEFINITION. The CRC-16 validator's pure functions (40_crc.md R67 to R75). `ACC` is an argument here, local to
one evaluation (R16); the operations on the register `ACC` of State are in Machine/Crc.lean. -/

namespace Sys2Proof.Machine

/-- `CRC.XORB b` as a function: XOR the byte into the low 8 bits (R69). -/
def crcXorb (a : Acc) (b : Byte) : Acc := a ^^^ b.setWidth 16

/-- `CRC.SHIFT` as a function: the low bit is tested before the logical right shift (R70). -/
def crcShift (a : Acc) : Acc :=
  if a.getLsbD 0 then (a >>> 1) ^^^ Config.crcPoly else a >>> 1

/-- `CRC.SHIFT` repeated `n` times. -/
def crcShifts : Nat → Acc → Acc
  | 0, a => a
  | n + 1, a => crcShifts n (crcShift a)

/-- `CRC.BYTE b` as a function: `byte(a, b) = shift^8(a xor zext_16(b))` (R71). -/
def crcByte (a : Acc) (b : Byte) : Acc := crcShifts 8 (crcXorb a b)

/-- The left fold of `CRC.BYTE` from a given accumulator (R73, R76). -/
def crcFold (a : Acc) (s : List Byte) : Acc := s.foldl crcByte a

/-- `CRC16 s`: the fold from `0xFFFF`, no final XOR, `s[0]` first (R73). -/
def crc16 (s : List Byte) : Acc := crcFold Config.crcInit s

/-- `CRC0 s`: the same fold started from `0x0000` (R76). -/
def crc0 (s : List Byte) : Acc := crcFold 0#16 s

end Sys2Proof.Machine
end

