-- ==== Sys2Proof/Syntax.lean ====
section
/-! DEFINITION. The operations of the stream core, one constructor per row of spec/opcode_table.json
(30_encoding.md R57). The block has no instruction set (R1): a row is an event of the host, an internal step, a
pure function used inside a step, a macro, or a notation of scripts, and its operands are the row's. -/

namespace Sys2Proof

/-- The operand `k` of `EXT24`: "0 or 3 (no other value is ever used)" (R104). -/
inductive FieldPos where
  /-- `k = 0`: the primary field. -/
  | k0
  /-- `k = 3`: the secondary field. -/
  | k3
deriving DecidableEq, Repr

/-- The operations (R57), in the order of spec/opcode_table.json. -/
inductive Instr where
  /-- `RESET`, host event (R147). -/
  | reset
  /-- `PUSH b`, host event (R85). -/
  | push (b : Byte)
  /-- `TICK`, host event (R118). -/
  | tick
  /-- `ACCEPT`, internal step (R88). -/
  | accept
  /-- `DROP`, internal step (R89). -/
  | drop
  /-- `REPORT`, internal step (R120). -/
  | report
  /-- `WAIT`, the quiescent condition (R87). -/
  | wait
  /-- `CRC.CHECK` on the 8-byte window `w` (R74). -/
  | crcCheck (w : Packet)
  /-- `EXT24 k` of the window `w` (R104). -/
  | ext24 (k : FieldPos) (w : Packet)
  /-- `DEC.PRI` of the window `w` (R105). -/
  | decPri (w : Packet)
  /-- `DEC.SEC` of the window `w` (R106). -/
  | decSec (w : Packet)
  /-- `SAMPLE`, emit `Sample(pri, sec)` (R107). -/
  | sample (pri sec : Int)
  /-- `CRC.INIT` (R68). -/
  | crcInit
  /-- `CRC.XORB b` (R69). -/
  | crcXorb (b : Byte)
  /-- `CRC.SHIFT` (R70). -/
  | crcShift
  /-- `CRC.BYTE b` (R71). -/
  | crcByte (b : Byte)
  /-- `CRC16 s` (R73). -/
  | crc16 (s : List Byte)
  /-- `CNT.INC` (R116). -/
  | cntInc
  /-- `DRAIN`, macro (R92). -/
  | drain
  /-- `APPEND s`, macro (R93). -/
  | append (s : List Byte)
  /-- `PACKET p s`, script notation (R66). -/
  | packet (p s : Int)
  /-- The `EV` word that offers nothing, "(no event)" (R56). -/
  | noEvent
deriving DecidableEq, Repr

/-- The rows that no bits of their own select: each "is invoked from the rule that uses it"
(opcode_table.json notes of the FN, MACRO and PKT rows). -/
inductive Callee where
  | crcCheck | ext24 | decPri | decSec | sample | crcInit | crcXorb | crcShift | crcByte | crc16
  | cntInc | drain | append | packet
deriving DecidableEq, Repr

/-- Where the bits of an operation stand: the formats `EV` and `SEL` carry the selection in their bits
(R56, R58); for every other row the invoking rule is the selection and the bits are operands only. -/
inductive Site where
  /-- The host's event port, format `EV` (R24, R56). -/
  | port
  /-- The select word of the state, format `SEL` (R58). -/
  | select
  /-- A call from the rule that uses the operation; the bits are its operands. -/
  | call (f : Callee)
deriving DecidableEq, Repr

end Sys2Proof
end

