-- ==== Sys2Proof/Machine/Operands.lean ====
section
/-! DEFINITION. The operand forms: the packet word and its bytes, the two 24-bit fields, sign extension to
`OUT_W` bits, the bytes of `PACKET p s`, and the physical values the integers stand for
(30_encoding.md R52 to R55, R66; 42_decoder.md R104 to R113). All pure; no state is read. -/

namespace Sys2Proof.Machine

/-- Window byte `W[i] = P[63−8i : 56−8i]`, `0 ≤ i ≤ 7` (R53). -/
def pktByte (p : Packet) (i : Nat) : Byte := p.extractLsb' (56 - 8 * i) 8

/-- The 8 bytes of a packet word, first-arriving first (R53). -/
def pktBytes (p : Packet) : List Byte :=
  [pktByte p 0, pktByte p 1, pktByte p 2, pktByte p 3, pktByte p 4, pktByte p 5, pktByte p 6, pktByte p 7]

/-- `P = W[0] ‖ W[1] ‖ … ‖ W[7]` (R53). -/
def pktOfBytes (b0 b1 b2 b3 b4 b5 b6 b7 : Byte) : Packet :=
  b0 ++ b1 ++ b2 ++ b3 ++ b4 ++ b5 ++ b6 ++ b7

/-- The leading 8 bytes of a byte sequence as a packet word; none when there are fewer than 8: `MemRead(0, 8)`
"is defined only when `LEN ≥ 8`" (R34, U13). -/
def leadingPkt : List Byte → Option Packet
  | b0 :: b1 :: b2 :: b3 :: b4 :: b5 :: b6 :: b7 :: _ => some (pktOfBytes b0 b1 b2 b3 b4 b5 b6 b7)
  | _ => none

/-- The test of `CRC.CHECK`: the CRC over all 8 bytes is `0x0000` (R74). -/
def pktValid (p : Packet) : Bool := crc16 (pktBytes p) == Config.crcGood

/-- The window position an `EXT24` operand names (R104, R6). -/
def fieldOffset : FieldPos → Nat
  | .k0 => Config.priOff
  | .k3 => Config.secOff

/-- `EXT24(W, k) = W[k] ‖ W[k+1] ‖ W[k+2]`, big-endian (R104, R36). -/
def ext24 (k : FieldPos) (p : Packet) : Field24 :=
  pktByte p (fieldOffset k) ++ pktByte p (fieldOffset k + 1) ++ pktByte p (fieldOffset k + 2)

/-- `sext_OUT_W` of a field, read as a two's-complement integer (R54, R108). -/
def sextOut (outW : Nat) (v : Field24) : Int := (v.signExtend outW).toInt

/-- `DEC.PRI` (R105). -/
def decPri (outW : Nat) (p : Packet) : Int := sextOut outW (ext24 .k0 p)

/-- `DEC.SEC` (R106). -/
def decSec (outW : Nat) (p : Packet) : Int := sextOut outW (ext24 .k3 p)

/-- The `OUT_W`-bit pattern of a decoded output, as the payload signal carries it (R23). -/
def outBits (outW : Nat) (v : Int) : BitVec outW := BitVec.ofInt outW v

/-- The three bytes of an integer as a 24-bit field, big-endian: `p mod 2^24` split (R66, R113). -/
def fieldBytes (v : Int) : List Byte :=
  let f := BitVec.ofInt 24 v
  [f.extractLsb' 16 8, f.extractLsb' 8 8, f.extractLsb' 0 8]

/-- The field three bytes stand for, as a signed 24-bit integer. -/
def signedField (b0 b1 b2 : Byte) : Int := (b0 ++ b1 ++ b2 : Field24).toInt

/-- The CRC field of a packet: low byte first, then high byte (R37, R55). -/
def crcField (c : Acc) : List Byte := [c.extractLsb' 0 8, c.extractLsb' 8 8]

/-- Six data bytes with the two CRC bytes that make them a valid packet (R55, R66, R102). -/
def sealData (d : List Byte) : List Byte := d ++ crcField (crc16 d)

/-- `PACKET p s`: the 8 bytes (R66). -/
def packetBytes (p s : Int) : List Byte := sealData (fieldBytes p ++ fieldBytes s)

/-- The physical primary value `pri / 1000`, an exact rational (R111); the consumer's, never computed in the block. -/
def priPhysical (pri : Int) : Rat := pri / Config.priDiv

/-- The physical secondary value `sec / 10` (R111). -/
def secPhysical (sec : Int) : Rat := sec / Config.secDiv

end Sys2Proof.Machine
end

