-- ==== Sys2Proof/Machine/State.lean ====
section
/-! DEFINITION. The state of the stream core and its reset value (10_state.md), with the inputs of a run and the
observer's record beside it, and the reasons a step can stop. INVENTORY.md, heading State, lists every field with
its rule. The block has no addressable memory (20_memory.md): its only storage is the queue `buf`. -/

namespace Sys2Proof.Machine

/-- The block raises no exception and has no fault state: "A model's fault set for the block is empty"
(R125, 92_eei_decisions.md D17). Nothing raises one. -/
inductive Fault where
deriving DecidableEq, Repr

/-- Why `exec` has no next state. -/
inductive Refusal where
  /-- Raised by an arm of `exec` whose operation has no meaning yet. Safe. No arm raises it in this model. -/
  | notModelled (mnemonic : String)
  /-- Raised by the meaning of an internal step (`ACCEPT`, `DROP`, `REPORT`, `WAIT`) asked for in a state in which
  it is not enabled (R58): the transition does not exist there, and with `LEN < 8` its window read and its `Pop` are
  not defined (R12, R34, U13). `step` never meets it. Safe. Log entry 9. -/
  | notEnabled (mnemonic : String)
deriving DecidableEq, Repr

/-- The two agents (R9). -/
inductive Agent where
  /-- The block: takes the internal steps. -/
  | block
  /-- The host: offers the events. -/
  | host
deriving DecidableEq, Repr

/-- An output event (R10, R23). -/
inductive OutEvent where
  /-- `Sample(pri, sec)`: two signed integers. -/
  | sample (pri sec : Int)
  /-- `Report(n)`: an unsigned integer. -/
  | report (n : Nat)
deriving DecidableEq, Repr

/-- Where the pure functions of the operation map leave their result when one of them is executed on its own
through `exec`. The model's own, no state of the block; no step reads or writes it. Log entry 2. -/
structure FnResult where
  /-- Result of `CRC.CHECK`. -/
  checkValid : Bool
  /-- Result of `EXT24`. -/
  field : Field24
  /-- Result of `DEC.PRI`. -/
  pri : Int
  /-- Result of `DEC.SEC`. -/
  sec : Int
  /-- The bytes `PACKET` stands for. -/
  packet : List Byte
deriving DecidableEq, Repr

/-- The state. -/
structure State where
  /-- `BUF`, the receive buffer, head (oldest byte) first (R13). -/
  buf : List Byte
  /-- `CNT`, the success counter (R17): `CNT_W` bits, kept as a number. Log entry 14. -/
  cnt : Nat
  /-- `TPEND`, the report-pending bit (R18). -/
  tpend : Bool
  /-- `ACC`, the CRC accumulator (R16): read only by the operations of the CRC family. -/
  acc : Acc
  /-- Results of pure functions executed on their own; the model's own. -/
  fn : FnResult
  /-- Which free value comes next; the model's own (log entry 3). -/
  fresh : Nat
  /-- `OUT`, the observer's trace, oldest event first (R10, R28). Log entry 11. -/
  out : List OutEvent
  /-- What the host will offer, one `EV` word a turn, an input of the run (R9, R28, R56). -/
  offers : List EvWord
  /-- Who moves next, an input of the run: the schedule that R28 and R164 leave free. When it is empty the block
  runs to quiescence before each event (R64). -/
  sched : List Agent
  /-- The instance parameters `BUF_CAP`, `CNT_W`, `OUT_W` (R7, R28): fixed per machine, written by no step.
  Log entry 10. -/
  cfg : Config.Params
deriving DecidableEq, Repr

/-- Reset value of the result fields (log entry 2). -/
def FnResult.reset : FnResult :=
  { checkValid := false, field := 0#24, pri := 0, sec := 0, packet := [] }

/-- The machine right after reset (R29, R148): buffer empty, counter 0, no report pending, a new trace, nothing
offered and nothing scheduled; the parameters at their defaults (R7). `ACC` is unspecified in the spec; 0 here
(log entry 1). -/
def State.reset : State :=
  { buf := []
    cnt := 0
    tpend := false
    acc := 0#16
    fn := FnResult.reset
    fresh := 0
    out := []
    offers := []
    sched := []
    cfg := Config.Params.default }

end Sys2Proof.Machine
end

