-- ==== Sys2Proof/Machine/Ops.lean ====
section
/-! DEFINITION. The named operations on State: the three buffer accesses (20_memory.md R33 to R35), emission
(R12), the counter's increment and the report's clear (R116, R120), and the free value of `ACC`.
The spec has no exception, no trap entry and no return (R125, R135, R136), so no operation here takes one: the
only recovery action is `popHead` inside `DROP`, the only service `reportOp`. -/

namespace Sys2Proof.Machine

/-- The answer of a meaning. -/
abbrev Result := Host.Outcome State Fault Refusal

/-- `MemWrite(LEN, 1, b)`: append one byte at the tail (R33). -/
def appendTail (b : Byte) (s : State) : State := { s with buf := s.buf ++ [b] }

/-- `MemRead(0, 8)`: the window, defined only when `LEN ≥ 8` (R15, R34). -/
def window (s : State) : Option Packet := leadingPkt s.buf

/-- `Pop(n)`: remove the first `n` bytes (R35). -/
def popHead (n : Nat) (s : State) : State := { s with buf := s.buf.drop n }

/-- `emit e`: append the output event to the trace (R12). -/
def emit (e : OutEvent) (s : State) : State := { s with out := s.out ++ [e] }

/-- Write the accumulator. -/
def setAcc (a : Acc) (s : State) : State := { s with acc := a }

/-- What an evaluation of `CRC16` inside a block step leaves in `ACC` is unspecified: a free value (R16, U9). -/
def disturbAcc (s : State) : State := { s with acc := Config.freeAcc s.fresh, fresh := s.fresh + 1 }

/-- `CNT + 1`, staying at the greatest value (R116, R117). -/
def satInc (max : Option Nat) (n : Nat) : Nat :=
  match max with
  | none => n + 1
  | some m => if n < m then n + 1 else n

/-- The operation `CNT.INC` (R116). -/
def incCnt (s : State) : State := { s with cnt := satInc s.cfg.cntMax s.cnt }

/-- The operation `SAMPLE` (R107). -/
def emitSample (pri sec : Int) (s : State) : State := emit (.sample pri sec) s

/-- The body of `ACCEPT` on its window, in the order of R88: decode, emit, count, remove 8 bytes. -/
def acceptOp (w : Packet) (s : State) : State :=
  popHead Config.pktLen (incCnt (emitSample (decPri s.cfg.outW w) (decSec s.cfg.outW w) (disturbAcc s)))

/-- The body of `DROP` (R89). -/
def dropOp (s : State) : State := popHead Config.dropLen (disturbAcc s)

/-- The body of `REPORT` (R120). -/
def reportOp (s : State) : State := { emit (.report s.cnt) s with cnt := 0, tpend := false }

/-- The body of `RESET` (R147); the observer starts a new trace (R29). `ACC` is not written. -/
def resetOp (s : State) : State := { s with buf := [], cnt := 0, tpend := false, out := [] }

/-- Continue with a next state; stop where the first stopped. -/
def andThen (r : Result) (f : State → Result) : Result :=
  match r with
  | .next s => f s
  | .fault e => .fault e
  | .refused e => .refused e

end Sys2Proof.Machine
end

