-- ==== Sys2Proof/Machine/Crc.lean ====
section
/-! DEFINITION. Meanings of the CRC-16 validator family (40_crc.md), acting on the register `ACC`. -/

namespace Sys2Proof.Machine

/-- `CRC.INIT`: `ACC <- 0xFFFF` (R68). -/
def execCrcInit (s : State) : Result := .next (setAcc Config.crcInit s)

/-- `CRC.XORB b`: `ACC <- ACC xor zext_16(b)` (R69). -/
def execCrcXorb (b : Byte) (s : State) : Result := .next (setAcc (crcXorb s.acc b) s)

/-- `CRC.SHIFT`: one conditional shift-and-XOR (R70). -/
def execCrcShift (s : State) : Result := .next (setAcc (crcShift s.acc) s)

/-- `CRC.BYTE b`: `CRC.XORB b`, then `CRC.SHIFT` 8 times (R71). -/
def execCrcByte (b : Byte) (s : State) : Result := .next (setAcc (crcByte s.acc b) s)

/-- `CRC16 s`: the checksum of the sequence, "result = ACC" (R73). -/
def execCrc16 (bs : List Byte) (s : State) : Result := .next (setAcc (crc16 bs) s)

/-- `CRC.CHECK`: the CRC of all 8 bytes of the window, tested for zero (R74). -/
def execCrcCheck (w : Packet) (s : State) : Result :=
  .next { setAcc (crc16 (pktBytes w)) s with fn := { s.fn with checkValid := pktValid w } }

end Sys2Proof.Machine
end

