-- ==== Sys2Proof/Machine/Decoder.lean ====
section
/-! DEFINITION. Meanings of the packet decoder family (42_decoder.md). The three pure functions leave their
result in the model's field `fn` (log entry 2), for every window, valid or not (log entry 13); `SAMPLE` emits. -/

namespace Sys2Proof.Machine

/-- `EXT24 k` (R104). -/
def execExt24 (k : FieldPos) (w : Packet) (s : State) : Result :=
  .next { s with fn := { s.fn with field := ext24 k w } }

/-- `DEC.PRI` (R105). -/
def execDecPri (w : Packet) (s : State) : Result :=
  .next { s with fn := { s.fn with pri := decPri s.cfg.outW w } }

/-- `DEC.SEC` (R106). -/
def execDecSec (w : Packet) (s : State) : Result :=
  .next { s with fn := { s.fn with sec := decSec s.cfg.outW w } }

/-- `SAMPLE`: `emit Sample(pri, sec)` (R107). -/
def execSample (pri sec : Int) (s : State) : Result := .next (emitSample pri sec s)

end Sys2Proof.Machine
end

