-- ==== Sys2Proof/WellFormed.lean ====
section
/-! DEFINITION. Which operations are well formed: the operand ranges the spec gives that the types of
Syntax.lean do not already hold. -/

namespace Sys2Proof

/-- `−8388608 ≤ v ≤ 8388607`, the range of a signed 24-bit integer (R54, R66, R108). -/
def inSigned24 (v : Int) : Bool := decide (-8388608 ≤ v) && decide (v ≤ 8388607)

/-- `PACKET p s` takes integers of the signed 24-bit range (R66); the two payloads of `SAMPLE` lie in that
range too, whatever `OUT_W` (R108). Every other operand is legal at every value of its type (R60, R61, R85). -/
def Instr.wellFormed : Instr → Bool
  | .reset => true
  | .push _ => true
  | .tick => true
  | .accept => true
  | .drop => true
  | .report => true
  | .wait => true
  | .crcCheck _ => true
  | .ext24 _ _ => true
  | .decPri _ => true
  | .decSec _ => true
  | .sample pri sec => inSigned24 pri && inSigned24 sec
  | .crcInit => true
  | .crcXorb _ => true
  | .crcShift => true
  | .crcByte _ => true
  | .crc16 _ => true
  | .cntInc => true
  | .drain => true
  | .append _ => true
  | .packet p s => inSigned24 p && inSigned24 s
  | .noEvent => true

end Sys2Proof
end

