-- ==== Sys2Proof/Decode.lean ====
section
/-! DEFINITION. Decoding and encoding. `decode site bytes` is total on any bytes and rejects by name.
At the site `port` the bytes are an `EV` word (R56), at `select` a `SEL` word (R58); the remaining rows have no
bits that select them (opcode_table.json: "the operation is selected by no bit pattern; it is invoked from the
rule that uses it"), so at a site `call f` the row is the callee `f` and the bytes are its operands. -/

namespace Sys2Proof

/-- Why bytes are no operation at a site. Raised by `decode` alone; safe (nothing is executed). -/
inductive Reject where
  /-- The bytes are not as many as the format or the operands need. -/
  | length
  /-- A bit above the word's width (`EV` 11 bits, `SEL` 3 bits) is set: the bytes are no such word. -/
  | highBits
  /-- The operand `k` of `EXT24` is neither 0 nor 3 (R104). -/
  | fieldPos
  /-- The 8 bytes are no `PACKET`: their last two are not the CRC of the first six (R66). -/
  | packetCrc
deriving DecidableEq, Repr

/-- What decoding answers. -/
inductive Decoded where
  | ok (i : Instr)
  | reject (r : Reject)
deriving DecidableEq, Repr

namespace Ev

/-- Bit 10, `rst` (R56). -/
def rst (w : EvWord) : Bool := w.getLsbD 10
/-- Bit 9, `tick` (R56). -/
def tick (w : EvWord) : Bool := w.getLsbD 9
/-- Bit 8, `in_valid` (R56). -/
def inValid (w : EvWord) : Bool := w.getLsbD 8
/-- Bits 7:0, `in_data` (R56). -/
def inData (w : EvWord) : Byte := w.extractLsb' 0 8

/-- The word of the event `RESET` (R65). -/
def resetWord : EvWord := 0x400#11
/-- The word of the event `TICK` (R65). -/
def tickWord : EvWord := 0x200#11
/-- The word of the event `PUSH b`, `0x1hh` (R65). -/
def pushWord (b : Byte) : EvWord := 0x100#11 ||| b.setWidth 11
/-- The word that offers nothing (R56). -/
def noneWord : EvWord := 0x000#11

/-- The same word with its `PUSH` taken out (`in_valid` cleared). -/
def withoutPush (w : EvWord) : EvWord := w &&& 0x6FF#11
/-- The same word with its `TICK` taken out (`tick` cleared). -/
def withoutTick (w : EvWord) : EvWord := w &&& 0x5FF#11

end Ev

/-- The first event of an `EV` word, by the masks and matches of R56; where a word holds both `PUSH` and `TICK`
the order is `PUSH` then `TICK` (R59). -/
def decodeEv (w : EvWord) : Instr :=
  if w &&& 0x400#11 = 0x400#11 then .reset
  else if w &&& 0x500#11 = 0x100#11 then .push (Ev.inData w)
  else if w &&& 0x600#11 = 0x200#11 then .tick
  else .noEvent

/-- What of an `EV` word is still to come after its first event: a `TICK` offered with a `PUSH`; nothing
otherwise (`RESET` overrides everything else in the word, R56). -/
def evRest (w : EvWord) : List EvWord :=
  if w &&& 0x400#11 = 0x400#11 then []
  else if w &&& 0x700#11 = 0x300#11 then [Ev.withoutPush w]
  else []

/-- The internal step a `SEL` word selects, by the masks and matches of R58. The two unreachable values fall to
`WAIT` and `REPORT`, "what the masks of rule R58 give" (R61). -/
def decodeSel (w : SelWord) : Instr :=
  if w &&& 0b011#3 = 0b011#3 then .accept
  else if w &&& 0b011#3 = 0b010#3 then .drop
  else if w &&& 0b110#3 = 0b100#3 then .report
  else .wait

/-- Exactly one byte. -/
def oneByte (f : Byte → Instr) : List Byte → Decoded
  | [b] => .ok (f b)
  | _ => .reject .length

/-- Exactly no bytes. -/
def noBytes (i : Instr) : List Byte → Decoded
  | [] => .ok i
  | _ => .reject .length

/-- Exactly the 8 bytes of a packet word. -/
def eightBytes (f : Packet → Instr) : List Byte → Decoded
  | [b0, b1, b2, b3, b4, b5, b6, b7] => .ok (f (Machine.pktOfBytes b0 b1 b2 b3 b4 b5 b6 b7))
  | _ => .reject .length

/-- An `EV` word in two bytes, bits 7:0 in the first (log entry 5). -/
def decodePort : List Byte → Decoded
  | [lo, hi] => if hi.toNat < 8 then .ok (decodeEv ((hi ++ lo : BitVec 16).setWidth 11)) else .reject .highBits
  | _ => .reject .length

/-- A `SEL` word in one byte, in its low 3 bits. -/
def decodeSelect : List Byte → Decoded
  | [b] => if b.toNat < 8 then .ok (decodeSel (b.setWidth 3)) else .reject .highBits
  | _ => .reject .length

/-- The operands of `EXT24`: the position `k`, then the window. -/
def decodeExt24 : List Byte → Decoded
  | [] => .reject .length
  | k :: ws =>
    if k = 0#8 then eightBytes (.ext24 .k0) ws
    else if k = 3#8 then eightBytes (.ext24 .k3) ws
    else .reject .fieldPos

/-- The operands of `SAMPLE`: two 24-bit two's-complement fields, big-endian, as `PKT` holds them (R113). -/
def decodeSample : List Byte → Decoded
  | [b0, b1, b2, b3, b4, b5] => .ok (.sample (Machine.signedField b0 b1 b2) (Machine.signedField b3 b4 b5))
  | _ => .reject .length

/-- The 8 bytes that `PACKET p s` stands for (R66). -/
def decodePacket : List Byte → Decoded
  | [b0, b1, b2, b3, b4, b5, b6, b7] =>
    if Machine.crcField (Machine.crc16 [b0, b1, b2, b3, b4, b5]) = [b6, b7] then
      .ok (.packet (Machine.signedField b0 b1 b2) (Machine.signedField b3 b4 b5))
    else .reject .packetCrc
  | _ => .reject .length

/-- Operands of a row that its callee selects. -/
def decodeCall : Callee → List Byte → Decoded
  | .crcCheck, bs => eightBytes .crcCheck bs
  | .ext24, bs => decodeExt24 bs
  | .decPri, bs => eightBytes .decPri bs
  | .decSec, bs => eightBytes .decSec bs
  | .sample, bs => decodeSample bs
  | .crcInit, bs => noBytes .crcInit bs
  | .crcXorb, bs => oneByte .crcXorb bs
  | .crcShift, bs => noBytes .crcShift bs
  | .crcByte, bs => oneByte .crcByte bs
  | .crc16, bs => .ok (.crc16 bs)
  | .cntInc, bs => noBytes .cntInc bs
  | .drain, bs => noBytes .drain bs
  | .append, bs => .ok (.append bs)
  | .packet, bs => decodePacket bs

/-- The decoder: total on any bytes at any site. -/
def decode : Site → List Byte → Decoded
  | .port, bs => decodePort bs
  | .select, bs => decodeSelect bs
  | .call f, bs => decodeCall f bs

/-- The site of an operation: the format column of spec/opcode_table.json. -/
def siteOf : Instr → Site
  | .reset => .port
  | .push _ => .port
  | .tick => .port
  | .accept => .select
  | .drop => .select
  | .report => .select
  | .wait => .select
  | .crcCheck _ => .call .crcCheck
  | .ext24 _ _ => .call .ext24
  | .decPri _ => .call .decPri
  | .decSec _ => .call .decSec
  | .sample _ _ => .call .sample
  | .crcInit => .call .crcInit
  | .crcXorb _ => .call .crcXorb
  | .crcShift => .call .crcShift
  | .crcByte _ => .call .crcByte
  | .crc16 _ => .call .crc16
  | .cntInc => .call .cntInc
  | .drain => .call .drain
  | .append _ => .call .append
  | .packet _ _ => .call .packet
  | .noEvent => .port

/-- The two bytes of an `EV` word, bits 7:0 first. -/
def evBytes (w : EvWord) : List Byte := [w.extractLsb' 0 8, (w.extractLsb' 8 3).setWidth 8]

/-- The bytes of an operation at its site: the match value of its row, its ignored bits 0, its operands in their
fields. -/
def encode : Instr → List Byte
  | .reset => evBytes Ev.resetWord
  | .push b => evBytes (Ev.pushWord b)
  | .tick => evBytes Ev.tickWord
  | .accept => [0b011#8]
  | .drop => [0b010#8]
  | .report => [0b100#8]
  | .wait => [0b000#8]
  | .crcCheck w => Machine.pktBytes w
  | .ext24 k w => BitVec.ofNat 8 (Machine.fieldOffset k) :: Machine.pktBytes w
  | .decPri w => Machine.pktBytes w
  | .decSec w => Machine.pktBytes w
  | .sample pri sec => Machine.fieldBytes pri ++ Machine.fieldBytes sec
  | .crcInit => []
  | .crcXorb b => [b]
  | .crcShift => []
  | .crcByte b => [b]
  | .crc16 s => s
  | .cntInc => []
  | .drain => []
  | .append s => s
  | .packet p s => Machine.packetBytes p s
  | .noEvent => evBytes Ev.noneWord

/-- The operation the decoder reads from a word of spec/opcode_table.json: an `EV` word in 16 bits, a `SEL` word
in 8, a `PKT` word in 64 (bit 63 the first-arriving byte's bit 7, R53). The five 64-bit rows share one pattern without
a fixed bit; the word is read as the operand of `CRC.CHECK`, the operation the block performs on every window
(R74, R86). A width of 0 selects nothing (log entry 6). -/
def decodeTableWord (nbits w : Nat) : Option Instr :=
  let answer : Decoded → Option Instr := fun d => match d with | .ok i => some i | .reject _ => none
  if nbits = 16 ∨ nbits = 11 then
    if w < 2 ^ 16 then answer (decode .port [BitVec.ofNat 8 w, BitVec.ofNat 8 (w / 256)]) else none
  else if nbits = 8 ∨ nbits = 3 then
    if w < 2 ^ 8 then answer (decode .select [BitVec.ofNat 8 w]) else none
  else if nbits = 64 then
    if w < 2 ^ 64 then answer (decode (.call .crcCheck) (Machine.pktBytes (BitVec.ofNat 64 w))) else none
  else none

end Sys2Proof
end

