-- ==== Sys2Proof/Machine/Flags.lean ====
section
/-! DEFINITION. The flags (10_state.md R20 to R22), all combinational functions of the state, the select word
`SEL` (R58) and the two conceptual control states (R19). -/

namespace Sys2Proof.Machine

/-- `LEN` (R14). -/
def len (s : State) : Nat := s.buf.length

/-- `HAVE8 = (LEN ≥ 8)` (R20). -/
def have8 (s : State) : Bool := decide (Config.pktLen ≤ len s)

/-- `VALID = HAVE8 and (CRC16(BUF[0..7]) = 0x0000)`; 0 when there is no window (R21). -/
def valid (s : State) : Bool :=
  match window s with
  | some w => pktValid w
  | none => false

/-- `LEN < BUF_CAP`, always true of an unbounded buffer (R22). -/
def hasRoom (cap : Option Nat) (n : Nat) : Bool :=
  match cap with
  | some c => decide (n < c)
  | none => true

/-- `READY = (LEN < BUF_CAP)` (R22). -/
def ready (s : State) : Bool := hasRoom s.cfg.bufCap (len s)

/-- `SEL = TPEND ‖ HAVE8 ‖ VALID` (R58). -/
def selWord (s : State) : SelWord :=
  BitVec.ofBool s.tpend ++ BitVec.ofBool (have8 s) ++ BitVec.ofBool (valid s)

/-- The block's next internal step (R58, R86). -/
def selected (s : State) : Instr := decodeSel (selWord s)

/-- No internal step is enabled: `WAIT` is selected (R57, R165). -/
def quiescent (s : State) : Bool := decide (selected s = .wait)

/-- The control states (R19, R84). -/
inductive Control where
  | needMoreBytes
  | haveCandidate
deriving DecidableEq, Repr

/-- The control state is a function of `LEN` alone (R19). -/
def control (s : State) : Control := if have8 s then .haveCandidate else .needMoreBytes

end Sys2Proof.Machine
end

