-- ==== Sys2Proof/Machine/Framer.lean ====
section
/-! DEFINITION. Meanings of the framer and resync engine family (41_framer.md). -/

namespace Sys2Proof.Machine

/-- `PUSH b` (R85): append at the tail when `READY`; otherwise "the word has no PUSH effect" (R56) and the byte
stays with the host. -/
def execPush (b : Byte) (s : State) : Result :=
  .next (if ready s then appendTail b s else s)

/-- `ACCEPT` (R88): enabled when the window is there and valid. -/
def execAccept (s : State) : Result :=
  match window s with
  | some w => if pktValid w then .next (acceptOp w s) else .refused (.notEnabled "ACCEPT")
  | none => .refused (.notEnabled "ACCEPT")

/-- `DROP` (R89): enabled when the window is there and not valid. -/
def execDrop (s : State) : Result :=
  match window s with
  | some w => if pktValid w then .refused (.notEnabled "DROP") else .next (dropOp s)
  | none => .refused (.notEnabled "DROP")

/-- `WAIT` (R87): the block is quiescent and does nothing. -/
def execWait (s : State) : Result :=
  if quiescent s then .next s else .refused (.notEnabled "WAIT")

/-- The framer's step where one is enabled: `if CRC16(W) = 0x0000 then ACCEPT else DROP` (R86). -/
def framerStep (s : State) : Option State :=
  match window s with
  | some w => some (if pktValid w then acceptOp w s else dropOp s)
  | none => none

/-- At most `n` framer steps. -/
def framerSteps : Nat → State → State
  | 0, s => s
  | n + 1, s =>
    match framerStep s with
    | some t => framerSteps n t
    | none => s

/-- `DRAIN` (R92): framer steps until `LEN < 8`; each shortens the buffer, so `LEN` of them suffice (R91). -/
def execDrain (s : State) : Result := .next (framerSteps (len s) s)

/-- Framer steps only until `READY` (R93), at most `n`. -/
def makeRoom : Nat → State → State
  | 0, s => s
  | n + 1, s =>
    if ready s then s
    else match framerStep s with
      | some t => makeRoom n t
      | none => s

/-- One `PUSH` of `APPEND`: framer steps as `READY` needs them, then the append (R93). -/
def pushMakingRoom (s : State) (b : Byte) : State :=
  let t := makeRoom (len s) s
  if ready t then appendTail b t else t

/-- `APPEND s` (R93): `PUSH` every byte in order, "interleaved with framer steps as `READY` allows"; the framer
steps are taken only where the next `PUSH` waits for one (log entry 7). -/
def execAppend (bs : List Byte) (s : State) : Result := .next (bs.foldl pushMakingRoom s)

end Sys2Proof.Machine
end

