-- ==== Sys2Proof/Machine/Rate.lean ====
section
/-! DEFINITION. Meanings of the success counter and report family (43_rate_counter.md). -/

namespace Sys2Proof.Machine

/-- `CNT.INC` (R116, R117). -/
def execCntInc (s : State) : Result := .next (incCnt s)

/-- `TICK`: `TPEND <- 1` (R118); a second one while pending changes nothing (R119). -/
def execTick (s : State) : Result := .next { s with tpend := true }

/-- `REPORT` (R120): enabled when `TPEND = 1` and `LEN < 8`. -/
def execReport (s : State) : Result :=
  if s.tpend && !have8 s then .next (reportOp s) else .refused (.notEnabled "REPORT")

end Sys2Proof.Machine
end

