-- ==== Sys2Proof/Machine/Reset.lean ====
section
/-! DEFINITION. Meanings of `RESET` (70_reset_and_hazards.md R147), of the word that offers nothing (R56) and of
the script notation `PACKET` (R66). -/

namespace Sys2Proof.Machine

/-- `RESET` (R147). -/
def execReset (s : State) : Result := .next (resetOp s)

/-- "(no event)" (R56): nothing happens. -/
def execNoEvent (s : State) : Result := .next s

/-- `PACKET p s` (R66): the 8 bytes it stands for, left in the model's field `fn` (log entry 2). -/
def execPacket (p q : Int) (s : State) : Result :=
  .next { s with fn := { s.fn with packet := packetBytes p q } }

end Sys2Proof.Machine
end

