-- ==== Sys2Proof/Machine/Dispatch.lean ====
section
/-! DEFINITION. One arm per operation; each meaning stands in the file of its family. -/

namespace Sys2Proof.Machine

def exec (i : Instr) (s : State) : Host.Outcome State Fault Refusal :=
  match i with
  | .reset => Sys2Proof.Machine.execReset s
  | .push b => Sys2Proof.Machine.execPush b s
  | .tick => Sys2Proof.Machine.execTick s
  | .accept => Sys2Proof.Machine.execAccept s
  | .drop => Sys2Proof.Machine.execDrop s
  | .report => Sys2Proof.Machine.execReport s
  | .wait => Sys2Proof.Machine.execWait s
  | .crcCheck w => Sys2Proof.Machine.execCrcCheck w s
  | .ext24 k w => Sys2Proof.Machine.execExt24 k w s
  | .decPri w => Sys2Proof.Machine.execDecPri w s
  | .decSec w => Sys2Proof.Machine.execDecSec w s
  | .sample p q => Sys2Proof.Machine.execSample p q s
  | .crcInit => Sys2Proof.Machine.execCrcInit s
  | .crcXorb b => Sys2Proof.Machine.execCrcXorb b s
  | .crcShift => Sys2Proof.Machine.execCrcShift s
  | .crcByte b => Sys2Proof.Machine.execCrcByte b s
  | .crc16 bs => Sys2Proof.Machine.execCrc16 bs s
  | .cntInc => Sys2Proof.Machine.execCntInc s
  | .drain => Sys2Proof.Machine.execDrain s
  | .append bs => Sys2Proof.Machine.execAppend bs s
  | .packet p q => Sys2Proof.Machine.execPacket p q s
  | .noEvent => Sys2Proof.Machine.execNoEvent s

end Sys2Proof.Machine
end

