-- ==== Sys2Proof/Machine/Fetch.lean ====
section
/-! DEFINITION. Which operation runs next: the block's selected step (R58) or the event the host offers (R56),
by the schedule in State (R28, R164). The block fetches no instructions (R49); this file is what stands in the
place of a fetch. The step relation has the six transitions of R57 and no other: no function of the operation map
is ever a step of its own (log entry 12). -/

namespace Sys2Proof.Machine

/-- The operation that runs and the state it runs on (the turn and the word it used are taken off the inputs). -/
structure Fetched where
  instr : Instr
  state : State
deriving DecidableEq, Repr

/-- The block's turn: the step `SEL` selects. -/
def blockTurn (s : State) : Fetched := { instr := selected s, state := s }

/-- A word whose `PUSH` cannot be taken: a byte offered while `READY = 0`, without `RESET`. -/
def pushWaits (w : EvWord) (s : State) : Bool := !Ev.rst w && Ev.inValid w && !ready s

/-- The host's turn. A word's events run one a step (R59 order). A byte offered while `READY = 0` is not taken and
the host keeps offering it (R56, R133): a `TICK` beside it happens, and with none the block takes its step, which is
what lifts the wait (R50). With nothing to offer the host offers nothing. -/
def hostTurn (s : State) : Fetched :=
  match s.offers with
  | [] => { instr := .noEvent, state := s }
  | w :: ws =>
    if pushWaits w s then
      if Ev.tick w then { instr := .tick, state := { s with offers := Ev.withoutTick w :: ws } }
      else blockTurn s
    else { instr := decodeEv w, state := { s with offers := evRest w ++ ws } }

/-- Who moves: the schedule says; where it has run out, the block while it has a step, then the host (R64). -/
def fetch (s : State) : Fetched :=
  match s.sched with
  | .block :: r => blockTurn { s with sched := r }
  | .host :: r => hostTurn { s with sched := r }
  | [] =>
    match s.offers with
    | [] => blockTurn s
    | _ :: _ => if quiescent s then hostTurn s else blockTurn s

/-- A window whose CRC is zero, `PACKET 0 0` (95_test_vectors.md, packet Z). -/
def aValidWindow : List Byte := [0x00#8, 0x00#8, 0x00#8, 0x00#8, 0x00#8, 0x00#8, 0x00#8, 0x1B#8]

/-- A window whose CRC is not zero, the idle line of zeros (R74, R157). -/
def anInvalidWindow : List Byte := [0x00#8, 0x00#8, 0x00#8, 0x00#8, 0x00#8, 0x00#8, 0x00#8, 0x00#8]

/-- A state from which the very next step runs the word (log entry 8). `EV`: the host offers it and has the turn.
`SEL`: buffer and pending bit give the flags the word names, and the block has the turn. `PKT`: the word is the
window, and the block has the turn: its step evaluates `CRC.CHECK` on it and takes `ACCEPT` or `DROP`. -/
def placeWord (s : State) (nbits w : Nat) : State :=
  if nbits = 16 ∨ nbits = 11 then
    { s with offers := BitVec.ofNat 11 w :: s.offers, sched := .host :: s.sched }
  else if nbits = 8 ∨ nbits = 3 then
    { s with
      buf := if w.testBit 1 then (if w.testBit 0 then aValidWindow else anInvalidWindow) else []
      tpend := w.testBit 2
      sched := .block :: s.sched }
  else if nbits = 64 then
    { s with buf := pktBytes (BitVec.ofNat 64 w), sched := .block :: s.sched }
  else s

end Sys2Proof.Machine
end

