-- ==== Sys2Proof/Machine/Step.lean ====
section
/-! DEFINITION. One step of the labelled transition system (R8): the fetched operation is executed. -/

namespace Sys2Proof.Machine

/-- One step: an event of the host or an internal step of the block (R8, R57). When the block is quiescent and the
host has nothing to offer, the step is `WAIT` and the state stays as it is (R87, R165). -/
def step (s : State) : Host.Outcome State Fault Refusal :=
  exec (fetch s).instr (fetch s).state

/-- `s` with the word placed where the next step takes it (Machine/Fetch.lean, `placeWord`). -/
def State.withFetchWord (s : State) (nbits w : Nat) : State := placeWord s nbits w

end Sys2Proof.Machine
end

