-- ==== Sys2Proof/Machine/Cycle.lean ====
section
/-! DEFINITION. The signal level: the ports of 10_state.md R23 and R24, and the effect of one clock cycle in which
several events coincide (30_encoding.md R59; the reference realisation of R163). It is built from `exec` alone and
adds no transition: R59 gives a cycle as a sequence of the transition system's. -/

namespace Sys2Proof.Machine

/-- One cycle with the `EV` word `w` on the input port: `RESET` alone; otherwise the internal step selected at the
start of the cycle, then `PUSH` if `READY` was 1 at the start, then `TICK` (R59). -/
def cycle (w : EvWord) (s : State) : Result :=
  if Ev.rst w then exec .reset s
  else
    andThen (exec (selected s) s) fun s1 =>
      andThen (if Ev.inValid w && ready s then exec (.push (Ev.inData w)) s1 else .next s1) fun s2 =>
        if Ev.tick w then exec .tick s2 else .next s2

/-- `in_ready = READY` (R24). -/
def inReady (s : State) : Bool := ready s

/-- The output signals (R23), `OUT_W` bits each payload of a sample; `report_count` is a number, since `CNT_W` may be
unbounded, cut to `CNT_W` bits. -/
structure Signals (outW : Nat) where
  /-- `sample_valid`: "high for the step of an `ACCEPT`". -/
  sampleValid : Bool
  /-- `sample_pri[OUT_W−1:0]`. -/
  samplePri : BitVec outW
  /-- `sample_sec[OUT_W−1:0]`. -/
  sampleSec : BitVec outW
  /-- `report_valid`: "high for the step of a `REPORT`". -/
  reportValid : Bool
  /-- `report_count[CNT_W−1:0]`. -/
  reportCount : Nat
deriving DecidableEq, Repr

/-- A payload signal: its value while valid, a free value otherwise (R29, U10, U11). -/
def payload (isValid : Bool) (v : Int) (signal : Nat) (s : State) : Int :=
  if isValid then v else Config.freePayload signal s.fresh

/-- The low `CNT_W` bits of a number. -/
def cutTo (cntW : Option Nat) (n : Nat) : Nat :=
  match cntW with
  | some w => n % 2 ^ w
  | none => n

/-- The output signals while the operation `i` is taken in the state `s`: a valid signal is high in the step of its
own operation and in no other (R23). -/
def signalsOf (i : Instr) (s : State) : Signals s.cfg.outW :=
  let isSample := decide (i = .accept)
  let isReport := decide (i = .report)
  { sampleValid := isSample
    samplePri := outBits s.cfg.outW (payload isSample (((window s).map (decPri s.cfg.outW)).getD 0) 0 s)
    sampleSec := outBits s.cfg.outW (payload isSample (((window s).map (decSec s.cfg.outW)).getD 0) 1 s)
    reportValid := isReport
    reportCount := cutTo s.cfg.cntW (payload isReport s.cnt 2 s).toNat }

/-- The signals of a step of the transition system: those of the operation the step takes. -/
def stepSignals (s : State) : Signals s.cfg.outW := signalsOf (fetch s).instr s

/-- The operation that decides the output of a cycle: `RESET` alone when `rst = 1`, else the internal step selected at
its start (R59, R163); `PUSH` and `TICK` emit nothing. -/
def cycleOp (w : EvWord) (s : State) : Instr := if Ev.rst w then .reset else selected s

/-- The signals of a cycle. With `rst = 1` nothing is pulsed (R163). -/
def cycleSignals (w : EvWord) (s : State) : Signals s.cfg.outW := signalsOf (cycleOp w s) s

/-- The events a consumer reads off the signals: payloads count while their valid signal is 1. -/
def carried {outW : Nat} (g : Signals outW) : List OutEvent :=
  (if g.sampleValid then [.sample g.samplePri.toInt g.sampleSec.toInt] else []) ++
    (if g.reportValid then [.report g.reportCount] else [])

end Sys2Proof.Machine
end

