-- ==== Sys2Proof/Machine/Script.lean ====
section
/-! DEFINITION. The event scripts of 30_encoding.md R64 and R65, the block's "assembly": each line is an event or a
macro, and after each event the block runs to quiescence unless the script holds its steps back. `EXPECT` is a check
and no event, so it is no line here. Log entry 15. -/

namespace Sys2Proof.Machine

/-- A script line (R65). -/
inductive Line where
  | reset
  | push (b : Byte)
  | tick
  | append (bs : List Byte)
  | drain
  | nostep
  | run
deriving DecidableEq, Repr

/-- Every enabled internal step taken, in the only order possible: the framer until `LEN < 8`, then the pending
report (R64, R91, R121). -/
def settle (s : State) : State :=
  let t := framerSteps (len s) s
  if t.tpend && !have8 t then reportOp t else t

/-- One event of a script, followed by the run to quiescence unless the steps are held back. -/
def scriptEvent (held : Bool) (i : Instr) (s : State) : Result :=
  andThen (exec i s) fun t => .next (if held then t else settle t)

/-- `APPEND` in a script: one `PUSH` line per byte, in order (R65); a byte offered while `READY = 0` does not
happen (R85; 95_test_vectors.md V-F11). -/
def scriptAppend (held : Bool) : List Byte → State → Result
  | [], s => .next s
  | b :: bs, s => andThen (scriptEvent held (.push b) s) (scriptAppend held bs)

/-- A script, from a state in which the block's steps are held back or not. -/
def runScript : List Line → Bool → State → Result
  | [], _, s => .next s
  | .nostep :: ls, _, s => runScript ls true s
  | .run :: ls, _, s => runScript ls false (settle s)
  | .reset :: ls, held, s => andThen (scriptEvent held .reset s) (runScript ls held)
  | .push b :: ls, held, s => andThen (scriptEvent held (.push b) s) (runScript ls held)
  | .tick :: ls, held, s => andThen (scriptEvent held .tick s) (runScript ls held)
  | .append bs :: ls, held, s => andThen (scriptAppend held bs s) (runScript ls held)
  | .drain :: ls, held, s => andThen (scriptEvent held .drain s) (runScript ls held)

end Sys2Proof.Machine
end

