-- ==== Sys2Proof/Safety.lean ====
section
/-! DEFINITION. What counts as a safe state and a run: the invariants of 10_state.md R30, the six labelled
transitions with their enabling conditions (30_encoding.md R57), runs as lists of labels, what a run has pushed,
dropped and counted, and the framing of a byte stream as a function (41_framer.md R92, R98). -/

namespace Sys2Proof.Machine

/-- `n` is at most the bound; no bound admits every `n`. -/
def atMost (n : Nat) : Option Nat → Bool
  | some m => decide (n ≤ m)
  | none => true

/-- What an output event may carry: decoded integers of the signed 24-bit range (R108), a count of `CNT_W` bits
(R23). -/
def legalEvent (cfg : Config.Params) : OutEvent → Bool
  | .sample pri sec => inSigned24 pri && inSigned24 sec
  | .report n => atMost n cfg.cntMax

/-- The invariant of every reachable state: parameters in their range (R7), `LEN ≤ BUF_CAP` (R30 item 1),
`CNT ≤ 2^CNT_W − 1` (R30 item 4), and only legal events in the trace. -/
abbrev Inv (s : State) : Prop :=
  s.cfg.wf = true ∧ atMost (len s) s.cfg.bufCap = true ∧ atMost s.cnt s.cfg.cntMax = true ∧
    s.out.all (legalEvent s.cfg) = true

/-- When each of the six transitions may occur (R57). `WAIT` and the other operations are no transitions. -/
def enabled : Instr → State → Bool
  | .reset, _ => true
  | .push _, s => ready s
  | .tick, _ => true
  | .accept, s => have8 s && valid s
  | .drop, s => have8 s && !valid s
  | .report, s => s.tpend && !have8 s
  | .wait, _ => false
  | .crcCheck _, _ => false
  | .ext24 _ _, _ => false
  | .decPri _, _ => false
  | .decSec _, _ => false
  | .sample _ _, _ => false
  | .crcInit, _ => false
  | .crcXorb _, _ => false
  | .crcShift, _ => false
  | .crcByte _, _ => false
  | .crc16 _, _ => false
  | .cntInc, _ => false
  | .drain, _ => false
  | .append _, _ => false
  | .packet _ _, _ => false
  | .noEvent, _ => false

/-- A run of the transition system: the labels in order, each enabled where it is taken (R8, R57). Any
interleaving of events and steps is such a list (R164). -/
def runLabels : List Instr → State → Option State
  | [], s => some s
  | i :: is, s =>
    if enabled i s then
      match exec i s with
      | .next t => runLabels is t
      | .fault _ => none
      | .refused _ => none
    else none

/-- An infinite run: at each point a label is taken where it is enabled, or nothing happens (the host has stopped
offering events, R164). -/
def isRun (label : Nat → Option Instr) (st : Nat → State) : Prop :=
  ∀ n, match label n with
    | some i => enabled i (st n) = true ∧ exec i (st n) = .next (st (n + 1))
    | none => st (n + 1) = st n

/-- Weak fairness for the block: "an internal step that stays enabled is eventually taken" (R164). -/
def weaklyFair (label : Nat → Option Instr) (st : Nat → State) : Prop :=
  ∀ i ∈ [Instr.accept, .drop, .report], ∀ n, (∀ m, n ≤ m → enabled i (st m) = true) → ∃ m, n ≤ m ∧ label m = some i

/-- Operations executed one after another, enabled or not: what a rule's pseudocode does line by line. -/
def execSeq : List Instr → State → Result
  | [], s => .next s
  | i :: is, s => andThen (exec i s) (execSeq is)

/-- The byte a label pushes. -/
def pushOf : Instr → Option Byte
  | .push b => some b
  | _ => none

/-- The bytes pushed in a run, in order. -/
def pushed (ls : List Instr) : List Byte := ls.filterMap pushOf

/-- How many bytes the labels of a run consume: 8 per `ACCEPT`, 1 per `DROP` (R30 item 2). -/
def consumed : List Instr → Nat
  | [] => 0
  | .accept :: is => 8 + consumed is
  | .drop :: is => 1 + consumed is
  | _ :: is => consumed is

/-- The number of `ACCEPT` labels of a run. -/
def accepts (ls : List Instr) : Nat := ls.count .accept

/-- The number of `ACCEPT` labels since the last `REPORT` or `RESET` of a run, `n` before it. -/
def acceptsSince : Nat → List Instr → Nat
  | n, [] => n
  | n, .accept :: is => acceptsSince (n + 1) is
  | _, .report :: is => acceptsSince 0 is
  | _, .reset :: is => acceptsSince 0 is
  | n, _ :: is => acceptsSince n is

/-- A byte that a `DROP` removed: its position in the sequence pushed since reset, counted from 0, and its value
(R89, R98). -/
structure Dropped where
  pos : Nat
  byte : Byte
deriving DecidableEq, Repr

/-- A drop as seen in a longer sequence, in which `n` bytes stand before. -/
def Dropped.shift (n : Nat) (d : Dropped) : Dropped := { d with pos := n + d.pos }

/-- The position of the buffer's head in the pushed sequence after a label, from the one before it: 8 on at `ACCEPT`,
1 on at `DROP`, back to 0 at `RESET`, which starts a new sequence (R30 item 2, R98). -/
def nextHead : Nat → Instr → Nat
  | k, .accept => k + 8
  | k, .drop => k + 1
  | _, .reset => 0
  | k, _ => k

/-- What a run from `s` drops, in order, when the buffer's head is at position `k` of the pushed sequence: at each
`DROP` the head of the buffer, with its position (R89, R98). -/
def droppedIn : Nat → List Instr → State → List Dropped
  | _, [], _ => []
  | k, i :: is, s =>
    (if i = .drop then (s.buf.take 1).map (Dropped.mk k) else []) ++
      match exec i s with
      | .next t => droppedIn (nextHead k i) is t
      | .fault _ => []
      | .refused _ => []

/-- The samples of a trace, in order. -/
def samplesOf (out : List OutEvent) : List (Int × Int) :=
  out.filterMap fun e => match e with | .sample p q => some (p, q) | .report _ => none

/-- The counts reported in a trace, in order. -/
def reportsOf (out : List OutEvent) : List Nat :=
  out.filterMap fun e => match e with | .report n => some n | .sample _ _ => none

/-- The greatest value a counter of the given bound shows for `n` (R117). -/
def capped (max : Option Nat) (n : Nat) : Nat :=
  match max with
  | some m => min n m
  | none => n

/-- The counts a run reports, when `n` packets were accepted before it since the last report: at each `REPORT`
the number of `ACCEPT` labels since the previous one (or since `RESET`), capped (R122). -/
def reportCounts (max : Option Nat) : Nat → List Instr → List Nat
  | _, [] => []
  | n, .accept :: is => reportCounts max (n + 1) is
  | n, .report :: is => capped max n :: reportCounts max 0 is
  | _, .reset :: is => reportCounts max 0 is
  | n, _ :: is => reportCounts max n is

/-- A framer label: `ACCEPT` or `DROP`. -/
def isFramer (i : Instr) : Bool := decide (i = .accept) || decide (i = .drop)

/-- What the block, its consumer and its parameters can show: everything but `ACC`, the result field of single
functions, the free-value counter and the inputs of the run. -/
structure BlockView where
  buf : List Byte
  cnt : Nat
  tpend : Bool
  out : List OutEvent
  cfg : Config.Params
deriving DecidableEq, Repr

/-- The view of a state. -/
def blockView (s : State) : BlockView :=
  { buf := s.buf, cnt := s.cnt, tpend := s.tpend, out := s.out, cfg := s.cfg }

/-- The signed integer of three bytes by arithmetic alone: `v − 16777216·⌊v / 8388608⌋` with
`v = 65536·b0 + 256·b1 + b2` (R113). -/
def arith24 (b0 b1 b2 : Byte) : Int :=
  let v : Int := 65536 * b0.toNat + 256 * b1.toNat + b2.toNat
  v - 16777216 * (v / 8388608)

/-- The two integers of a window given as bytes (R105, R106, R113). -/
def windowSample (w : List Byte) : Int × Int :=
  (arith24 (w.getD 0 0#8) (w.getD 1 0#8) (w.getD 2 0#8), arith24 (w.getD 3 0#8) (w.getD 4 0#8) (w.getD 5 0#8))

/-- What the framer makes of a byte sequence: the samples, what is dropped and where, and the remainder (R92, R98). -/
structure Framing where
  samples : List (Int × Int)
  dropped : List Dropped
  rest : List Byte
deriving DecidableEq, Repr

/-- The framing by at most `n` framer steps of a byte sequence whose first byte has position `k`. -/
def frameSteps : Nat → Nat → List Byte → Framing
  | n + 1, k, b0 :: b1 :: b2 :: b3 :: b4 :: b5 :: b6 :: b7 :: t =>
    if crc16 [b0, b1, b2, b3, b4, b5, b6, b7] = 0x0000#16 then
      let f := frameSteps n (k + 8) t
      { f with samples := (arith24 b0 b1 b2, arith24 b3 b4 b5) :: f.samples }
    else
      let f := frameSteps n (k + 1) (b1 :: b2 :: b3 :: b4 :: b5 :: b6 :: b7 :: t)
      { f with dropped := { pos := k, byte := b0 } :: f.dropped }
  | _, _, s => { samples := [], dropped := [], rest := s }

/-- The drain of a byte sequence that stands from position `k` on in a longer one; positions are those of the longer
one (R98). -/
def frameFrom (k : Nat) (s : List Byte) : Framing := frameSteps s.length k s

/-- `frame(s)`: the whole sequence drained from the empty state (R98). -/
def frame (s : List Byte) : Framing := frameFrom 0 s

/-- A byte sequence is a valid window: 8 bytes with CRC zero (R74). -/
def validWindow (w : List Byte) : Bool := decide (w.length = 8) && crc16 w == 0x0000#16

end Sys2Proof.Machine
end

