-- ==== Sys2Proof/Certificates/Slice0/Obligations.lean ====
section
/-! DEFINITION. The statements for the provers, taken from the spec's numbered rules. Each docstring names the rule
it formalises; where a clause rests on a choice of the model, it names the log entry. -/

open Sys2Proof Sys2Proof.Machine

/-! ### Reset -/

/-- R148: the reset state. -/
def Obligations.ResetStateIsAsTheSpecSays : Prop :=
  State.reset.buf = [] ∧ len State.reset = 0 ∧ State.reset.cnt = 0 ∧ State.reset.tpend = false ∧
    control State.reset = .needMoreBytes ∧
    (∀ i ∈ [Instr.accept, Instr.drop, Instr.report], enabled i State.reset = false) ∧
    ready State.reset = true

/-- R147: `RESET` empties the buffer, clears the counter and the pending bit, emits nothing, writes nothing else, and
overrides whatever stands with it in an `EV` word. That the trace is empty after it is R29 (the observer starts a new
trace) as log entry 11 reads it. -/
def Obligations.ResetEventClearsTheBlock : Prop :=
  ∀ s : State,
    exec .reset s = .next { s with buf := [], cnt := 0, tpend := false, out := [] } ∧
    (∀ t, exec .reset s = .next t →
      have8 t = false ∧ valid t = false ∧ (s.cfg.wf = true → ready t = true)) ∧
    (∀ w : EvWord, w.getLsbD 10 = true →
      decodeEv w = .reset ∧ evRest w = [] ∧ cycle w s = exec .reset s)

/-- R16, R27, R75, R149: a run depends on `BUF`, `CNT`, `TPEND` alone; what `ACC` held, and the free values, play no
part in it. And nothing survives a restart: two machines of the same parameters, whatever they held, run alike after
`RESET` (the second clause compares the traces after it, which start anew there: R29, log entry 11). -/
def Obligations.RunsDependOnlyOnTheBlocksState : Prop :=
  (∀ (ls : List Instr) (s s' : State), blockView s = blockView s' →
    (runLabels ls s).map blockView = (runLabels ls s').map blockView) ∧
  (∀ (ls : List Instr) (s s' : State), s.cfg = s'.cfg →
    (runLabels (.reset :: ls) s).map blockView = (runLabels (.reset :: ls) s').map blockView)

/-- R13, R17, R18, R31, R49: which transitions write what. -/
def Obligations.OnlyTheListedStepsWrite : Prop :=
  ∀ (i : Instr) (s t : State), enabled i s = true → exec i s = .next t →
    (t.buf ≠ s.buf → i = .reset ∨ (∃ b, i = .push b) ∨ i = .accept ∨ i = .drop) ∧
    (t.cnt ≠ s.cnt → i = .reset ∨ i = .accept ∨ i = .report) ∧
    (t.tpend ≠ s.tpend → i = .reset ∨ i = .tick ∨ i = .report) ∧
    (t.out ≠ s.out → i = .reset ∨ i = .accept ∨ i = .report) ∧
    (t.acc ≠ s.acc → i = .accept ∨ i = .drop) ∧ (t.fresh ≠ s.fresh → i = .accept ∨ i = .drop) ∧
    t.fn = s.fn ∧ t.offers = s.offers ∧ t.sched = s.sched ∧ t.cfg = s.cfg

/-! ### Encodings -/

/-- R56: what an `EV` word means, bit by bit; a byte offered while `READY = 0` has no effect (that `exec` answers the
same state there is log entry 16), and a word that offers nothing none either. That of a word with both the `PUSH` comes
first and the `TICK` is left for a step of its own is R59 as log entry 8 takes it. -/
def Obligations.EvWordDecodesByItsBits : Prop :=
  (∀ w : EvWord,
    decodeEv w =
      if w.getLsbD 10 then .reset
      else if w.getLsbD 8 then .push (w.setWidth 8)
      else if w.getLsbD 9 then .tick
      else .noEvent) ∧
  (∀ w : EvWord,
    (evRest w).map decodeEv =
      if !w.getLsbD 10 && w.getLsbD 8 && w.getLsbD 9 then [Instr.tick] else []) ∧
  (∀ (b : Byte) (s : State), ready s = false → exec (.push b) s = .next s) ∧
  (∀ s : State, exec .noEvent s = .next s)

/-- R58, R86: the select word; the four rows are exclusive, cover every reachable value, and select by `LEN`, the CRC
of the first 8 bytes and `TPEND`. -/
def Obligations.SelWordSelectsOneStep : Prop :=
  ∀ s : State,
    ((selWord s).getLsbD 2 = s.tpend ∧ (selWord s).getLsbD 1 = have8 s ∧ (selWord s).getLsbD 0 = valid s) ∧
    (selWord s ≠ 0b001#3 ∧ selWord s ≠ 0b101#3) ∧
    (decodeSel (selWord s) =
      if 8 ≤ s.buf.length then
        (if crc16 (s.buf.take 8) = 0x0000#16 then .accept else .drop)
      else if s.tpend = true then .report else .wait) ∧
    (∀ i ∈ [Instr.accept, Instr.drop, Instr.report], (enabled i s = true ↔ decodeSel (selWord s) = i)) ∧
    (quiescent s = true ↔ decodeSel (selWord s) = .wait)

/-- Decode and encode agree: no bit of an operand is dropped, for every well-formed operation. -/
def Obligations.DecodeOfEncodeIsTheInstruction : Prop :=
  ∀ i : Instr, i.wellFormed = true → decode (siteOf i) (encode i) = .ok i

/-- Whatever decodes is well formed and of its site; where the bytes are operands, each has one meaning. -/
def Obligations.DecodedIsWellFormedAndReencodes : Prop :=
  ∀ (site : Site) (bs : List Byte) (i : Instr), decode site bs = .ok i →
    i.wellFormed = true ∧ siteOf i = site ∧ (∀ f, site = .call f → encode i = bs)

/-- Words written out from the spec's encodings (R56, R58, R65, R66): a sanity statement. Their layout in bytes is the
model's (log entry 5), and so is that a 64-bit word, which five rows share, is read as `CRC.CHECK` (log entry 6). -/
def Obligations.WordsOfTheSpecDecode : Prop :=
  decodeTableWord 16 0x400 = some .reset ∧ decodeTableWord 16 0x19F = some (.push 0x9F#8) ∧
    decodeTableWord 16 0x200 = some .tick ∧ decodeTableWord 16 0x0AA = some .noEvent ∧
    decodeTableWord 8 0b111 = some .accept ∧ decodeTableWord 8 0b010 = some .drop ∧
    decodeTableWord 8 0b100 = some .report ∧ decodeTableWord 8 0b000 = some .wait ∧
    decodeTableWord 64 0x00006400000A9F2C = some (.crcCheck 0x00006400000A9F2C#64) ∧
    decode (.call .packet) [0xFF#8, 0xFF#8, 0x9C#8, 0xFF#8, 0xFF#8, 0xFF#8, 0x1F#8, 0xD0#8] =
      .ok (.packet (-100) (-1))

/-! ### The CRC family -/

/-- R68: `CRC.INIT`. -/
def Obligations.CrcInitWritesAllOnes : Prop :=
  ∀ s : State, exec .crcInit s = .next { s with acc := 0xFFFF#16 }

/-- R69: `CRC.XORB b`. -/
def Obligations.CrcXorbTouchesTheLowByte : Prop :=
  ∀ (b : Byte) (s : State), ∃ a : Acc,
    exec (.crcXorb b) s = .next { s with acc := a } ∧ a = s.acc ^^^ b.setWidth 16 ∧
    a.extractLsb' 0 8 = s.acc.extractLsb' 0 8 ^^^ b ∧ a.extractLsb' 8 8 = s.acc.extractLsb' 8 8 ∧
    (b = 0x00#8 → a = s.acc)

/-- R70: `CRC.SHIFT`, by the bits of the result; the operation is a bijection. -/
def Obligations.CrcShiftTestsTheLowBitFirst : Prop :=
  (∀ s : State, ∃ a : Acc,
    exec .crcShift s = .next { s with acc := a } ∧
    a = (if s.acc.getLsbD 0 then (s.acc >>> 1) ^^^ 0xA001#16 else s.acc >>> 1) ∧
    a.getLsbD 15 = s.acc.getLsbD 0 ∧
    (∀ i, i < 15 → a.getLsbD i = (s.acc.getLsbD (i + 1) ^^ (s.acc.getLsbD 0 && (0xA001#16).getLsbD i)))) ∧
  Function.Bijective crcShift

/-- R71: `CRC.BYTE b` is `CRC.XORB b` and then `CRC.SHIFT` eight times. -/
def Obligations.CrcByteIsXorbThenEightShifts : Prop :=
  ∀ (b : Byte) (s : State),
    exec (.crcByte b) s = .next { s with acc := crcShift^[8] (s.acc ^^^ b.setWidth 16) } ∧
    exec (.crcByte b) s = execSeq (.crcXorb b :: List.replicate 8 .crcShift) s

/-- R73: `CRC16 s` is `CRC.INIT` and then `CRC.BYTE` for each byte in order; the result is in `ACC`, whatever `ACC`
held. That `exec` leaves it in the state's `acc`, where R16 and U9 call `ACC` unspecified after an evaluation, is the
model's choice (log entry 2). -/
def Obligations.Crc16IsInitThenBytes : Prop :=
  (∀ (bs : List Byte) (s : State), ∃ a : Acc,
    exec (.crc16 bs) s = .next { s with acc := a } ∧
    execSeq (.crcInit :: bs.map .crcByte) s = .next { s with acc := a } ∧ a = crc16 bs) ∧
  crc16 [] = 0xFFFF#16 ∧ crc16 [0x00#8] = 0x40BF#16 ∧
  crc16 [0x00#8, 0x00#8, 0x64#8, 0x00#8, 0x00#8, 0x0A#8] = 0x2C9F#16 ∧
  crc16 [0x00#8, 0x00#8, 0x64#8, 0x00#8, 0x00#8, 0x0A#8, 0x9F#8, 0x2C#8] = 0x0000#16

/-- R74, R21: `CRC.CHECK` runs all 8 bytes through and tests for zero; on the window of a buffer that holds 8 or more
bytes it is the flag `VALID`. That its result and `ACC` are left in State is the model's choice (log entry 2). -/
def Obligations.CrcCheckRunsAllEightBytes : Prop :=
  ∀ (b0 b1 b2 b3 b4 b5 b6 b7 : Byte) (rest : List Byte) (s : State),
    exec (.crcCheck (pktOfBytes b0 b1 b2 b3 b4 b5 b6 b7)) s =
      .next { s with
        acc := crc16 [b0, b1, b2, b3, b4, b5, b6, b7]
        fn := { s.fn with checkValid := decide (crc16 [b0, b1, b2, b3, b4, b5, b6, b7] = 0x0000#16) } } ∧
    (s.buf = b0 :: b1 :: b2 :: b3 :: b4 :: b5 :: b6 :: b7 :: rest →
      valid s = decide (crc16 [b0, b1, b2, b3, b4, b5, b6, b7] = 0x0000#16))

/-- R76: linearity and invertibility. -/
def Obligations.CrcIsLinearAndInvertible : Prop :=
  ((∀ a a' : Acc, crcShift (a ^^^ a') = crcShift a ^^^ crcShift a') ∧ crcShift 0#16 = 0#16) ∧
  (Function.Bijective crcShift ∧
    ∀ a : Acc, a.getLsbD 0 = (crcShift a).getLsbD 15 ∧
      a.extractLsb' 1 15 =
        (crcShift a ^^^ (if a.getLsbD 0 then 0xA001#16 else 0x0000#16)).extractLsb' 0 15) ∧
  ((∀ (a a' : Acc) (b b' : Byte), crcByte (a ^^^ a') (b ^^^ b') = crcByte a b ^^^ crcByte a' b') ∧
    crcByte 0#16 0#8 = 0#16 ∧ ∀ b : Byte, Function.Bijective fun a => crcByte a b) ∧
  ((∀ s : List Byte, crc16 s = crc0 s ^^^ crcFold 0xFFFF#16 (List.replicate s.length 0#8)) ∧
    (∀ s e : List Byte, s.length = e.length →
      crc0 (List.zipWith (· ^^^ ·) s e) = crc0 s ^^^ crc0 e) ∧
    (List.range 9).map (fun n => crcFold 0xFFFF#16 (List.replicate n 0#8)) =
      [0xFFFF#16, 0x40BF#16, 0xB001#16, 0xC071#16, 0x2400#16, 0x0024#16, 0x1B00#16, 0x001B#16, 0x0B40#16])

/-- R77: the table form. -/
def Obligations.CrcTableFormAgrees : Prop :=
  (∀ (a : Acc) (b : Byte), crcByte a b = (a >>> 8) ^^^ crcByte 0#16 (a.setWidth 8 ^^^ b)) ∧
  [0x00#8, 0x01#8, 0x02#8, 0x03#8, 0x80#8, 0xFF#8].map (crcByte 0#16) =
    [0x0000#16, 0xC0C1#16, 0xC181#16, 0x0140#16, 0xA001#16, 0x4040#16]

/-- R78: the residue law. -/
def Obligations.CrcResidueIsZero : Prop :=
  ∀ m : List Byte,
    crc16 (m ++ [(crc16 m).extractLsb' 0 8, (crc16 m).extractLsb' 8 8]) = 0x0000#16

/-- R79: exactly one pair of bytes completes six data bytes to a valid window, low byte first. -/
def Obligations.CrcFieldIsUnique : Prop :=
  ∀ (d : List Byte) (x y : Byte), d.length = 6 →
    (crc16 (d ++ [x, y]) = 0x0000#16 ↔
      x = (crc16 d).extractLsb' 0 8 ∧ y = (crc16 d).extractLsb' 8 8)

/-- R81 items 1 and 2: a valid window changed in one byte only, or in bytes 6 and 7 only, is invalid. -/
def Obligations.OneByteErrorsAreDetected : Prop :=
  (∀ (x y : List Byte) (b b' : Byte), (x ++ b :: y).length = 8 → b ≠ b' →
    validWindow (x ++ b :: y) = true → validWindow (x ++ b' :: y) = false) ∧
  (∀ (d : List Byte) (x y x' y' : Byte), d.length = 6 → (x, y) ≠ (x', y') →
    validWindow (d ++ [x, y]) = true → validWindow (d ++ [x', y']) = false)

/-- R80: exactly `2^48` of the `2^64` windows are valid. -/
def Obligations.ValidWindowsAreTwoToTheFortyEight : Prop :=
  Nat.card { p : Packet // pktValid p = true } = 2 ^ 48

/-! ### The framer family -/

/-- R85: `PUSH b` appends at the tail when `READY`, and does nothing else. That `exec` answers the same state at
`READY = 0`, where the event does not happen, is log entry 16. -/
def Obligations.PushAppendsOneByte : Prop :=
  ∀ (b : Byte) (s : State),
    (ready s = true → exec (.push b) s = .next { s with buf := s.buf ++ [b] }) ∧
    (ready s = false → exec (.push b) s = .next s) ∧
    (∀ n, s.cfg.bufCap = some n → (ready s = true ↔ s.buf.length < n)) ∧
    (s.cfg.bufCap = none → ready s = true) ∧
    (∀ t, ready s = true → exec (.push b) s = .next t → (have8 t = true ↔ 7 ≤ s.buf.length))

/-- R88, with R105, R106, R113 and R116 for the values: `ACCEPT` on a valid window emits the two integers, counts one
packet (staying at the greatest count), removes 8 bytes and leaves `TPEND` alone. What `ACC` holds then is a free
value. -/
def Obligations.AcceptEmitsCountsAndRemovesEight : Prop :=
  ∀ (b0 b1 b2 b3 b4 b5 b6 b7 : Byte) (rest : List Byte) (s : State),
    s.cfg.wf = true → s.buf = b0 :: b1 :: b2 :: b3 :: b4 :: b5 :: b6 :: b7 :: rest →
    crc16 [b0, b1, b2, b3, b4, b5, b6, b7] = 0x0000#16 →
    ∃ (a : Acc) (k : Nat),
      exec .accept s = .next { s with
        buf := rest
        cnt := (match s.cfg.cntW with
          | some w => if s.cnt < 2 ^ w - 1 then s.cnt + 1 else s.cnt
          | none => s.cnt + 1)
        out := s.out ++ [.sample (arith24 b0 b1 b2) (arith24 b3 b4 b5)]
        acc := a
        fresh := k }

/-- R89: `DROP` on an invalid window removes exactly the first byte, and emits and counts nothing. -/
def Obligations.DropRemovesExactlyOneByte : Prop :=
  ∀ (b0 : Byte) (rest : List Byte) (s : State),
    s.buf = b0 :: rest → 7 ≤ rest.length → crc16 (s.buf.take 8) ≠ 0x0000#16 →
    ∃ (a : Acc) (k : Nat), exec .drop s = .next { s with buf := rest, acc := a, fresh := k }

/-- R57, R58: an internal step asked for where it is not enabled has no next state, and none of its effect. That `exec`
answers a refusal by its name there is the model's choice (log entry 9); `step` never answers one. -/
def Obligations.InternalStepsRefuseWhereNotEnabled : Prop :=
  ∀ s : State,
    (enabled .accept s = false → exec .accept s = .refused (.notEnabled "ACCEPT")) ∧
    (enabled .drop s = false → exec .drop s = .refused (.notEnabled "DROP")) ∧
    (enabled .report s = false → exec .report s = .refused (.notEnabled "REPORT")) ∧
    (quiescent s = false → exec .wait s = .refused (.notEnabled "WAIT")) ∧
    (∀ e, step s ≠ .refused e)

/-- R87: `WAIT` with fewer than 8 bytes and no report pending changes nothing; no framer step exists there. -/
def Obligations.WaitChangesNothing : Prop :=
  ∀ s : State, s.buf.length < 8 →
    (s.tpend = false → exec .wait s = .next s) ∧ framerStep s = none ∧
    enabled .accept s = false ∧ enabled .drop s = false

/-- R96: with fewer than 8 bytes held, no framer step, no CRC evaluation and no change of `BUF` until the next `PUSH`
or `RESET`. That no evaluation shows as `acc` and `fresh` unchanged rests on log entry 3. -/
def Obligations.PartialPacketIsLeftAlone : Prop :=
  ∀ (ls : List Instr) (s t : State), s.buf.length < 8 → (∀ b, Instr.push b ∉ ls) → Instr.reset ∉ ls →
    runLabels ls s = some t →
    t.buf = s.buf ∧ t.acc = s.acc ∧ t.fresh = s.fresh ∧ Instr.accept ∉ ls ∧ Instr.drop ∉ ls

/-- R91: from `LEN = n ≥ 8`, with no `PUSH` in between, there are at most `n − 7` framer steps, and at least
`⌈(n − 7)/8⌉` before `LEN ≤ 7` where no `RESET` empties the buffer; `TICK` and `REPORT` may stand among them. -/
def Obligations.FramerStepsAreBounded : Prop :=
  ∀ (ls : List Instr) (s t : State), 8 ≤ s.buf.length → (∀ b, Instr.push b ∉ ls) → runLabels ls s = some t →
    (ls.filter isFramer).length ≤ s.buf.length - 7 ∧
    (Instr.reset ∉ ls → t.buf.length ≤ 7 → s.buf.length - 7 ≤ 8 * (ls.filter isFramer).length)

/-- R92, R97 item 1: `DRAIN` is a run of framer steps until fewer than 8 bytes remain, and what it emits and leaves
is the framing of the buffer. -/
def Obligations.DrainFramesTheBuffer : Prop :=
  ∀ s : State, s.cfg.wf = true → ∃ (t : State) (ls : List Instr),
    exec .drain s = .next t ∧ runLabels ls s = some t ∧ (∀ i ∈ ls, i = .accept ∨ i = .drop) ∧
    t.buf.length ≤ 7 ∧ t.buf = (frame s.buf).rest ∧
    samplesOf t.out = samplesOf s.out ++ (frame s.buf).samples ∧ reportsOf t.out = reportsOf s.out ∧
    t.tpend = s.tpend ∧ t.cnt = (satInc s.cfg.cntMax)^[(frame s.buf).samples.length] s.cnt

/-- R93: `APPEND s` pushes every byte in order, with framer steps in between only as `READY` needs them (that they
come no sooner is the model's choice, log entry 7); with an unbounded buffer it appends all of `s`. -/
def Obligations.AppendPushesInOrder : Prop :=
  (∀ (bs : List Byte) (s : State), s.cfg.bufCap = none →
    exec (.append bs) s = .next { s with buf := s.buf ++ bs }) ∧
  (∀ (bs : List Byte) (s : State), s.cfg.wf = true → ∃ (t : State) (ls : List Instr),
    exec (.append bs) s = .next t ∧ runLabels ls s = some t ∧ pushed ls = bs ∧
    (∀ i ∈ ls, i = .accept ∨ i = .drop ∨ ∃ b, i = .push b))

/-- R46: `PUSH` commutes with the enabled framer step. -/
def Obligations.PushCommutesWithFramerSteps : Prop :=
  ∀ (b : Byte) (i : Instr) (s : State), 8 ≤ s.buf.length → ready s = true → i = .accept ∨ i = .drop →
    enabled i s = true →
    ∃ t, execSeq [.push b, i] s = .next t ∧ execSeq [i, .push b] s = .next t ∧
      runLabels [.push b, i] s = some t ∧ runLabels [i, .push b] s = some t

/-- R47: `TICK` commutes with `PUSH`, `ACCEPT` and `DROP`, and does not commute with `REPORT`. -/
def Obligations.TickCommutesButNotWithReport : Prop :=
  (∀ (i : Instr) (s : State), i = .accept ∨ i = .drop ∨ (∃ b, i = .push b) → enabled i s = true →
    ∃ t, runLabels [.tick, i] s = some t ∧ runLabels [i, .tick] s = some t) ∧
  (∀ s : State, enabled .report s = true →
    ∃ t u, runLabels [.tick, .report] s = some t ∧ runLabels [.report, .tick] s = some u ∧
      t.tpend = false ∧ u.tpend = true)

/-- R98: schedule independence. However pushes, framer steps, ticks and reports interleave, and for every `BUF_CAP` of
the allowed range, the samples, the dropped bytes with their positions in the pushed sequence, and the remainder are
those of the framing of the pushed bytes. A dropped position is that of the byte in the sequence. Framing continues:
`y` after `x` is the drain of `remainder(x) ++ y`, its positions counted in `x ++ y`, where the remainder begins behind
the bytes of `x` that are gone. -/
def Obligations.SamplesDoNotDependOnTheSchedule : Prop :=
  (∀ (ls : List Instr) (s t : State), s.cfg.wf = true → s.buf = [] → Instr.reset ∉ ls →
    runLabels ls s = some t → t.buf.length < 8 →
    samplesOf t.out = samplesOf s.out ++ (frame (pushed ls)).samples ∧
    droppedIn 0 ls s = (frame (pushed ls)).dropped ∧ t.buf = (frame (pushed ls)).rest) ∧
  (∀ x y : List Byte,
    (let f := frame ((frame x).rest ++ y)
     frame (x ++ y) =
      { samples := (frame x).samples ++ f.samples
        dropped := (frame x).dropped ++ f.dropped.map (Dropped.shift (x.length - (frame x).rest.length))
        rest := f.rest }) ∧
    (∀ d ∈ (frame x).dropped, x[d.pos]? = some d.byte) ∧
    (frame x).rest.length ≤ 7)

/-- R99: resynchronisation. `k` garbage bytes, none of whose windows is valid, then a valid window, then any bytes,
pushed under any schedule: the framer's first `k + 1` steps, as far as a run takes them, are `k` `DROP`s and one
`ACCEPT`; at whatever point of the run they are done, the garbage has been dropped in order, from positions 0 to `k − 1`
of the pushed sequence, the trace has gained exactly the packet's sample, and `BUF` holds what of the bytes behind the
packet has been pushed; and a run that leaves fewer than 8 bytes has done them. -/
def Obligations.ResyncDropsExactlyTheGarbage : Prop :=
  ∀ (g p r : List Byte) (ls : List Instr) (s t : State), s.cfg.wf = true → s.buf = [] → Instr.reset ∉ ls →
    runLabels ls s = some t → pushed ls = g ++ p ++ r → validWindow p = true →
    (∀ i, i < g.length → validWindow (((g ++ p).drop i).take 8) = false) →
    (ls.filter isFramer).take (g.length + 1) <+: List.replicate g.length .drop ++ [.accept] ∧
    (∀ (l1 l2 : List Instr) (u : State), ls = l1 ++ l2 → runLabels l1 s = some u →
      (l1.filter isFramer).length = g.length + 1 →
      l1.filter isFramer = List.replicate g.length .drop ++ [.accept] ∧ droppedIn 0 l1 s = g.mapIdx Dropped.mk ∧
      u.buf ++ pushed l2 = r ∧ samplesOf u.out = samplesOf s.out ++ [windowSample p]) ∧
    (t.buf.length < 8 →
      g.length + 1 ≤ (ls.filter isFramer).length ∧
      samplesOf t.out = samplesOf s.out ++ windowSample p :: (frame r).samples ∧ t.buf = (frame r).rest)

/-- R101: consecutive valid packets with no gap, any number of them: each is accepted, nothing is dropped, nothing
remains. -/
def Obligations.BackToBackPacketsAreAllAccepted : Prop :=
  ∀ (ws : List (List Byte)) (ls : List Instr) (s t : State), s.cfg.wf = true → s.buf = [] → Instr.reset ∉ ls →
    runLabels ls s = some t → t.buf.length < 8 → pushed ls = ws.flatten → (∀ w ∈ ws, validWindow w = true) →
    ls.filter isFramer = List.replicate ws.length .accept ∧ t.buf = [] ∧
    samplesOf t.out = samplesOf s.out ++ ws.map windowSample

/-- R102: six data bytes with the CRC field of R55 are accepted whole, whatever the six bytes are. -/
def Obligations.SealedDataIsAccepted : Prop :=
  ∀ (d0 d1 d2 d3 d4 d5 : Byte) (s : State), s.cfg.wf = true →
    s.buf = [d0, d1, d2, d3, d4, d5, (crc16 [d0, d1, d2, d3, d4, d5]).extractLsb' 0 8,
      (crc16 [d0, d1, d2, d3, d4, d5]).extractLsb' 8 8] →
    enabled .drop s = false ∧
    ∃ t, runLabels [.accept] s = some t ∧ t.buf = [] ∧
      t.out = s.out ++ [.sample (arith24 d0 d1 d2) (arith24 d3 d4 d5)]

/-- R157: an idle line of zeros or of ones never yields a valid window, however long and however scheduled. -/
def Obligations.IdleLinesYieldNoSample : Prop :=
  crc16 (List.replicate 8 0x00#8) = 0x0B40#16 ∧ crc16 (List.replicate 8 0xFF#8) = 0x8F01#16 ∧
  ∀ (n : Nat) (b : Byte) (ls : List Instr) (s t : State), s.cfg.wf = true → s.buf = [] → Instr.reset ∉ ls →
    b = 0x00#8 ∨ b = 0xFF#8 → pushed ls = List.replicate n b → runLabels ls s = some t →
    Instr.accept ∉ ls ∧ samplesOf t.out = samplesOf s.out

/-! ### The decoder family -/

/-- R104: `EXT24 k` is big-endian and of fixed width. Where its result is left is the model's choice (log entry 2), and
that it has its value on an invalid window too is log entry 13. -/
def Obligations.Ext24IsBigEndian : Prop :=
  ∀ (b0 b1 b2 b3 b4 b5 b6 b7 : Byte) (s : State), ∃ u v : Field24,
    exec (.ext24 .k0 (pktOfBytes b0 b1 b2 b3 b4 b5 b6 b7)) s = .next { s with fn := { s.fn with field := u } } ∧
    u.toNat = b0.toNat * 65536 + b1.toNat * 256 + b2.toNat ∧
    exec (.ext24 .k3 (pktOfBytes b0 b1 b2 b3 b4 b5 b6 b7)) s = .next { s with fn := { s.fn with field := v } } ∧
    v.toNat = b3.toNat * 65536 + b4.toNat * 256 + b5.toNat

/-- R105, R106, R113: `DEC.PRI` and `DEC.SEC` give the signed integers of bytes 0 to 2 and 3 to 5, for every `OUT_W`
of the allowed range. Where the results are left is the model's choice (log entry 2), and that they have these values on
an invalid window too is log entry 13. -/
def Obligations.DecodedIntegersAreSigned24 : Prop :=
  ∀ (b0 b1 b2 b3 b4 b5 b6 b7 : Byte) (s : State), s.cfg.wf = true →
    exec (.decPri (pktOfBytes b0 b1 b2 b3 b4 b5 b6 b7)) s =
      .next { s with fn := { s.fn with pri := arith24 b0 b1 b2 } } ∧
    exec (.decSec (pktOfBytes b0 b1 b2 b3 b4 b5 b6 b7)) s =
      .next { s with fn := { s.fn with sec := arith24 b3 b4 b5 } }

/-- R107: `SAMPLE` appends one `Sample(pri, sec)` to the trace and keeps no copy. -/
def Obligations.SampleEmitsOneEvent : Prop :=
  ∀ (pri sec : Int) (s : State),
    exec (.sample pri sec) s = .next { s with out := s.out ++ [.sample pri sec] }

/-- R108: sign extension to `OUT_W ≥ 24` bits. -/
def Obligations.SignExtensionKeepsTheValue : Prop :=
  ∀ (n : Nat) (v : Field24), 24 ≤ n →
    (v.signExtend n).setWidth 24 = v ∧
    (∀ i, 24 ≤ i → i < n → (v.signExtend n).getLsbD i = v.getLsbD 23) ∧
    sextOut n v = v.toInt ∧ -8388608 ≤ sextOut n v ∧ sextOut n v ≤ 8388607 ∧
    outBits n (sextOut n v) = v.signExtend n

/-- R109, R110: the sample is determined by the six data bytes, and determines them. -/
def Obligations.SampleDeterminesTheDataBytes : Prop :=
  ∀ (n : Nat) (w w' : Packet), 24 ≤ n →
    ((decPri n w = decPri n w' ∧ decSec n w = decSec n w') ↔ ∀ i, i < 6 → pktByte w i = pktByte w' i)

/-- R66: `PACKET p s`, for integers of the 24-bit range, is a valid window that decodes to `(p, s)`. Where its bytes
are left is the model's choice (log entry 2). -/
def Obligations.PacketBuildsAValidWindow : Prop :=
  ∀ (p q : Int) (s : State), -8388608 ≤ p → p ≤ 8388607 → -8388608 ≤ q → q ≤ 8388607 →
    ∃ bs : List Byte, exec (.packet p q) s = .next { s with fn := { s.fn with packet := bs } } ∧
      validWindow bs = true ∧ windowSample bs = (p, q) ∧
      bs.drop 6 = [(crc16 (bs.take 6)).extractLsb' 0 8, (crc16 (bs.take 6)).extractLsb' 8 8]

/-! ### The counter and report family -/

/-- R116, R117: `CNT.INC` adds 1 and stays at `2^CNT_W − 1`. -/
def Obligations.CntIncSaturates : Prop :=
  ∀ s : State,
    (s.cfg.cntW = none → exec .cntInc s = .next { s with cnt := s.cnt + 1 }) ∧
    (∀ w, s.cfg.cntW = some w →
      (s.cnt < 2 ^ w - 1 → exec .cntInc s = .next { s with cnt := s.cnt + 1 }) ∧
      (s.cnt = 2 ^ w - 1 → exec .cntInc s = .next s))

/-- R118, R119: `TICK` sets `TPEND` and nothing else; a second one while pending changes nothing. -/
def Obligations.TickLatchesAndMerges : Prop :=
  ∀ s : State, exec .tick s = .next { s with tpend := true } ∧
    (s.tpend = true → exec .tick s = .next s)

/-- R120: `REPORT` emits the counter and clears it and the pending bit; `BUF` is not touched. -/
def Obligations.ReportEmitsAndClears : Prop :=
  ∀ s : State, s.tpend = true → s.buf.length < 8 →
    exec .report s = .next { s with out := s.out ++ [.report s.cnt], cnt := 0, tpend := false }

/-- R121: `REPORT` is not enabled while `LEN ≥ 8`; the block's own turn is then the framer's, and after the drain the
pending report is enabled. -/
def Obligations.ReportWaitsForTheDrain : Prop :=
  ∀ s : State,
    (8 ≤ s.buf.length → enabled .report s = false ∧ isFramer (selected s) = true) ∧
    (s.tpend = true → ∃ t, exec .drain s = .next t ∧ enabled .report t = true)

/-- R122: each report carries the number of packets accepted since the previous one, capped; in particular `N` and
then 0. -/
def Obligations.ReportsCountThePacketsSinceTheLast : Prop :=
  (∀ (ls : List Instr) (s t : State), Instr.reset ∉ ls → atMost s.cnt s.cfg.cntMax = true →
    runLabels ls s = some t →
    reportsOf t.out = reportsOf s.out ++ reportCounts s.cfg.cntMax s.cnt ls) ∧
  (∀ (l1 l2 : List Instr) (s t : State), s.cnt = 0 → s.out = [] →
    Instr.reset ∉ l1 → Instr.report ∉ l1 → Instr.reset ∉ l2 → Instr.report ∉ l2 → Instr.accept ∉ l2 →
    (∀ w, s.cfg.cntW = some w → accepts l1 < 2 ^ w) →
    runLabels (l1 ++ [.tick, .report] ++ l2 ++ [.tick, .report]) s = some t →
    ∃ es, t.out = es ++ [.report (accepts l1), .report 0] ∧ es.length = accepts l1 ∧ reportsOf es = [])

/-- R123: the sum of all reported counts plus the current `CNT` is the number of `ACCEPT` steps, where the counter
saturates in no reporting interval: at no point of the run have more than `2^CNT_W − 1` packets been accepted since the
last report. -/
def Obligations.ReportedSumIsTheNumberOfAccepts : Prop :=
  ∀ (ls : List Instr) (s t : State), Instr.reset ∉ ls →
    (∀ l1, l1 <+: ls → atMost (acceptsSince s.cnt l1) s.cfg.cntMax = true) → runLabels ls s = some t →
    (reportsOf t.out).sum + t.cnt = (reportsOf s.out).sum + s.cnt + accepts ls

/-- R30 items 4 and 5: the counter and the number of samples both count `ACCEPT` steps. -/
def Obligations.CounterAndSamplesCountAccepts : Prop :=
  ∀ (ls : List Instr) (s t : State), atMost s.cnt s.cfg.cntMax = true → runLabels ls s = some t →
    t.cnt = capped s.cfg.cntMax (acceptsSince s.cnt ls) ∧
    (Instr.reset ∉ ls → (samplesOf t.out).length = (samplesOf s.out).length + accepts ls)

/-- R30 item 2, R39: `BUF` is a contiguous piece of the pushed stream; no byte is duplicated, reordered or altered. -/
def Obligations.BufferIsAPieceOfTheStream : Prop :=
  ∀ (ls : List Instr) (s t : State), s.buf = [] → Instr.reset ∉ ls → runLabels ls s = some t →
    t.buf = (pushed ls).drop (consumed ls) ∧ consumed ls ≤ (pushed ls).length

/-! ### The machine -/

/-- R30: the invariant holds at reset. -/
def Obligations.InvHoldsAtReset : Prop := Inv State.reset

/-- R30: every step keeps the invariant, from every state that has it: `LEN ≤ BUF_CAP`, `CNT ≤ 2^CNT_W − 1`, the trace
holds only signed 24-bit samples and counts of `CNT_W` bits, and the parameters stay in range and unchanged. -/
def Obligations.StepKeepsInv : Prop :=
  ∀ s t : State, Inv s → step s = .next t → Inv t ∧ t.cfg = s.cfg

/-- R125: no step faults or refuses; every event has a next state, and so has every enabled step. -/
def Obligations.EveryStepHasANextState : Prop :=
  (∀ s : State, ∃ t, step s = .next t) ∧
  (∀ (s : State) (b : Byte),
    (∃ t, exec .reset s = .next t) ∧ (∃ t, exec (.push b) s = .next t) ∧ (∃ t, exec .tick s = .next t)) ∧
  (∀ (i : Instr) (s : State), enabled i s = true → ∃ t, exec i s = .next t)

/-- A step runs the decoded operation: the block's turn runs what `SEL` selects, the host's turn what the head `EV` word
decodes to (a byte offered while `READY = 0` waits); with the schedule run out, the block goes first while it has a step
(log entry 8). -/
def Obligations.StepRunsTheDecodedInstruction : Prop :=
  ∀ s : State,
    let hostRuns := fun (w : EvWord) (ws : List EvWord) (r : List Agent) =>
      let waits := w.getLsbD 10 = false ∧ w.getLsbD 8 = true ∧ ready s = false
      (¬ waits → ∀ i, decode .port (evBytes w) = .ok i →
        step s = exec i { s with sched := r, offers := evRest w ++ ws }) ∧
      (waits → w.getLsbD 9 = true →
        step s = exec .tick { s with sched := r, offers := (w &&& 0x5FF#11) :: ws }) ∧
      (waits → w.getLsbD 9 = false → step s = exec (decodeSel (selWord s)) { s with sched := r })
    (∀ r, s.sched = .block :: r → step s = exec (decodeSel (selWord s)) { s with sched := r }) ∧
    (∀ r, s.sched = .host :: r →
      (s.offers = [] → step s = exec .noEvent { s with sched := r }) ∧
      (∀ w ws, s.offers = w :: ws → hostRuns w ws r)) ∧
    (s.sched = [] →
      (quiescent s = false → step s = exec (decodeSel (selWord s)) s) ∧
      (quiescent s = true → s.offers = [] → step s = .next s) ∧
      (quiescent s = true → ∀ w ws, s.offers = w :: ws → hostRuns w ws []))

/-- R57: a step is one of the six labelled transitions, enabled, or changes nothing but the inputs of the run; and
every enabled transition is the step of some inputs. The inputs of the run (`offers`, `sched`) are the model's (log entry
8), and that `step` takes no function, macro or notation is log entry 12. -/
def Obligations.StepsAreTheSixTransitions : Prop :=
  (∀ s t : State, step s = .next t →
    t = { s with offers := t.offers, sched := t.sched } ∨
    ∃ (i : Instr) (u : State), enabled i s = true ∧ exec i s = .next u ∧
      t = { u with offers := t.offers, sched := t.sched }) ∧
  (∀ (i : Instr) (s : State), enabled i s = true →
    ∃ (o : List EvWord) (r : List Agent) (u t : State), exec i s = .next u ∧
      step { s with offers := o, sched := r } = .next t ∧ t = { u with offers := [], sched := [] })

/-- R59, R163: a clock cycle in which events coincide is `RESET` alone, or else the internal step of the start of the
cycle, then `PUSH` if `READY` was 1 at the start, then `TICK`; it is a run of enabled transitions, and a `TICK` in the
cycle of a `REPORT` leaves `TPEND = 1`. -/
def Obligations.CycleIsARunOfTransitions : Prop :=
  ∀ (w : EvWord) (s : State), ∃ t, cycle w s = .next t ∧
    (w.getLsbD 10 = true → runLabels [.reset] s = some t) ∧
    (w.getLsbD 10 = false →
      runLabels
        ((if quiescent s then [] else [selected s]) ++
          (if w.getLsbD 8 && ready s then [Instr.push (w.setWidth 8)] else []) ++
          (if w.getLsbD 9 then [Instr.tick] else [])) s = some t ∧
      (w.getLsbD 9 = true → t.tpend = true))

/-- R23, R59, R163: the output signals carry what is emitted, in a clock cycle and in a step of the transition system.
A cycle with `rst = 1`, and a step that is `RESET`, pulse nothing, and the trace is empty after them (R29: the observer
starts a new one, as log entry 11 reads it); otherwise the trace gains exactly the events read off
the signals (none while both valid signals are 0, whatever the payloads carry then, log entry 4). `report_count` has
`CNT_W` bits. The premise on `CNT` is part of `Inv`. -/
def Obligations.SignalsCarryTheEmission : Prop :=
  ∀ s : State, s.cfg.wf = true → atMost s.cnt s.cfg.cntMax = true →
    (∀ (w : EvWord) (t : State), cycle w s = .next t →
      (w.getLsbD 10 = true → carried (cycleSignals w s) = [] ∧ t.out = []) ∧
      (w.getLsbD 10 = false → t.out = s.out ++ carried (cycleSignals w s))) ∧
    (∀ t : State, step s = .next t →
      ((fetch s).instr = .reset → carried (stepSignals s) = [] ∧ t.out = []) ∧
      ((fetch s).instr ≠ .reset → t.out = s.out ++ carried (stepSignals s))) ∧
    (∀ (i : Instr) (w : Nat), s.cfg.cntW = some w → (signalsOf i s).reportCount < 2 ^ w)

/-- R64: a script line's run to quiescence takes enabled internal steps only, and ends quiescent. -/
def Obligations.SettlingEndsQuiescent : Prop :=
  ∀ s : State, quiescent (settle s) = true ∧
    ∃ ls : List Instr, (∀ i ∈ ls, i = .accept ∨ i = .drop ∨ i = .report) ∧ runLabels ls s = some (settle s)

/-- R164, R121: under weak fairness every window is tested at last, unless `RESET` discards it; and a pending report is
made at last, unless `RESET` discards it, where fewer than 8 bytes stay held from some point on, which is how log entry
17 reads R164 (R121 lets a stream that keeps the buffer full postpone it for ever). -/
def Obligations.FairRunsTestEveryWindowAndReport : Prop :=
  ∀ (label : Nat → Option Instr) (st : Nat → State), isRun label st → weaklyFair label st → ∀ n,
    (8 ≤ (st n).buf.length →
      ∃ m, n ≤ m ∧ (label m = some .accept ∨ label m = some .drop ∨ label m = some .reset)) ∧
    ((st n).tpend = true → (∀ m, n ≤ m → (st m).buf.length < 8) →
      ∃ m, n ≤ m ∧ (label m = some .report ∨ label m = some .reset))
end

