-- ==== Sys2Proof/Laws/Crc.lean ====
section
/-! SUPPORT. The small lemmas of the CRC functions: the folds unfold one byte at a time. -/

namespace Sys2Proof.Machine

@[simp] theorem crcShifts_zero (a : Acc) : crcShifts 0 a = a := rfl
@[simp] theorem crcShifts_succ (n : Nat) (a : Acc) : crcShifts (n + 1) a = crcShifts n (crcShift a) := rfl

theorem crcByte_eq (a : Acc) (b : Byte) : crcByte a b = crcShifts 8 (a ^^^ b.setWidth 16) := rfl

@[simp] theorem crcFold_nil (a : Acc) : crcFold a [] = a := rfl
@[simp] theorem crcFold_cons (a : Acc) (b : Byte) (s : List Byte) :
    crcFold a (b :: s) = crcFold (crcByte a b) s := rfl

theorem crcFold_append (a : Acc) (s t : List Byte) : crcFold a (s ++ t) = crcFold (crcFold a s) t := by
  simp [crcFold, List.foldl_append]

theorem crc16_eq_fold (s : List Byte) : crc16 s = crcFold 0xFFFF#16 s := rfl

@[simp] theorem crc16_nil : crc16 [] = 0xFFFF#16 := rfl

theorem crc16_append (s t : List Byte) : crc16 (s ++ t) = crcFold (crc16 s) t := crcFold_append _ s t

end Sys2Proof.Machine
end

