-- ==== Sys2Proof/Laws/Operands.lean ====
section
/-! SUPPORT. The small lemmas of the operand forms: the bytes of a packet word, and when a byte sequence has a
leading window. -/

namespace Sys2Proof.Machine

@[simp] theorem pktBytes_length (p : Packet) : (pktBytes p).length = 8 := rfl

theorem pktByte_pktOfBytes (b0 b1 b2 b3 b4 b5 b6 b7 : Byte) :
    pktBytes (pktOfBytes b0 b1 b2 b3 b4 b5 b6 b7) = [b0, b1, b2, b3, b4, b5, b6, b7] := by
  simp only [pktBytes, pktByte, pktOfBytes, List.cons.injEq, and_true]
  refine ⟨?_, ?_, ?_, ?_, ?_, ?_, ?_, ?_⟩ <;>
  · apply BitVec.eq_of_getLsbD_eq
    intro i hi
    simp only [BitVec.getLsbD_extractLsb', BitVec.getLsbD_append]
    interval_cases i <;> simp

/-- Three bytes as one 24-bit pattern: the first weighs 65536 (R36). -/
theorem field_toNat (b0 b1 b2 : Byte) :
    (b0 ++ b1 ++ b2 : Field24).toNat = b0.toNat * 65536 + b1.toNat * 256 + b2.toNat := by
  simp only [BitVec.toNat_append]
  rw [← Nat.shiftLeft_add_eq_or_of_lt b2.isLt, ← Nat.shiftLeft_add_eq_or_of_lt b1.isLt, Nat.shiftLeft_eq,
    Nat.shiftLeft_eq]
  omega

/-- A window is there exactly when at least 8 bytes are. -/
theorem leadingPkt_eq_none_iff (s : List Byte) : leadingPkt s = none ↔ s.length < 8 := by
  match s with
  | [] | [_] | [_, _] | [_, _, _] | [_, _, _, _] | [_, _, _, _, _] | [_, _, _, _, _, _]
  | [_, _, _, _, _, _, _] => simp [leadingPkt]
  | _ :: _ :: _ :: _ :: _ :: _ :: _ :: _ :: t => simp [leadingPkt]

/-- A leading window is the packet word of the first 8 bytes. -/
theorem leadingPkt_eq_some (s : List Byte) (w : Packet) (h : leadingPkt s = some w) :
    ∃ b0 b1 b2 b3 b4 b5 b6 b7 t, s = b0 :: b1 :: b2 :: b3 :: b4 :: b5 :: b6 :: b7 :: t ∧
      w = pktOfBytes b0 b1 b2 b3 b4 b5 b6 b7 := by
  match s with
  | [] | [_] | [_, _] | [_, _, _] | [_, _, _, _] | [_, _, _, _, _] | [_, _, _, _, _, _]
  | [_, _, _, _, _, _, _] => simp [leadingPkt] at h
  | b0 :: b1 :: b2 :: b3 :: b4 :: b5 :: b6 :: b7 :: t =>
    exact ⟨b0, b1, b2, b3, b4, b5, b6, b7, t, rfl, by simpa [leadingPkt] using h.symm⟩

/-- The window's bytes are the first 8 of the sequence. -/
theorem pktBytes_leadingPkt (s : List Byte) (w : Packet) (h : leadingPkt s = some w) :
    pktBytes w = s.take 8 := by
  obtain ⟨b0, b1, b2, b3, b4, b5, b6, b7, t, rfl, rfl⟩ := leadingPkt_eq_some s w h
  simp [pktByte_pktOfBytes]

theorem pktValid_leadingPkt (s : List Byte) (w : Packet) (h : leadingPkt s = some w) :
    pktValid w = (crc16 (s.take 8) == 0x0000#16) := by
  rw [pktValid, pktBytes_leadingPkt s w h]; rfl

/-- Bytes behind the window do not change it. -/
theorem leadingPkt_append (s t : List Byte) (h : 8 ≤ s.length) : leadingPkt (s ++ t) = leadingPkt s := by
  match s with
  | [] | [_] | [_, _] | [_, _, _] | [_, _, _, _] | [_, _, _, _, _] | [_, _, _, _, _, _]
  | [_, _, _, _, _, _, _] => simp at h
  | _ :: _ :: _ :: _ :: _ :: _ :: _ :: _ :: _ => simp [leadingPkt]

end Sys2Proof.Machine
end

