-- ==== Sys2Proof/Laws/State.lean ====
section
/-! SUPPORT. One lemma per field and named operation of Machine/Ops.lean, so that no later proof unfolds a record
update. -/

namespace Sys2Proof.Machine

@[simp] theorem appendTail_buf (b : Byte) (s : State) : (appendTail b s).buf = s.buf ++ [b] := rfl
@[simp] theorem appendTail_cnt (b : Byte) (s : State) : (appendTail b s).cnt = s.cnt := rfl
@[simp] theorem appendTail_tpend (b : Byte) (s : State) : (appendTail b s).tpend = s.tpend := rfl
@[simp] theorem appendTail_acc (b : Byte) (s : State) : (appendTail b s).acc = s.acc := rfl
@[simp] theorem appendTail_fn (b : Byte) (s : State) : (appendTail b s).fn = s.fn := rfl
@[simp] theorem appendTail_fresh (b : Byte) (s : State) : (appendTail b s).fresh = s.fresh := rfl
@[simp] theorem appendTail_out (b : Byte) (s : State) : (appendTail b s).out = s.out := rfl
@[simp] theorem appendTail_offers (b : Byte) (s : State) : (appendTail b s).offers = s.offers := rfl
@[simp] theorem appendTail_sched (b : Byte) (s : State) : (appendTail b s).sched = s.sched := rfl
@[simp] theorem appendTail_cfg (b : Byte) (s : State) : (appendTail b s).cfg = s.cfg := rfl

@[simp] theorem popHead_buf (n : Nat) (s : State) : (popHead n s).buf = s.buf.drop n := rfl
@[simp] theorem popHead_cnt (n : Nat) (s : State) : (popHead n s).cnt = s.cnt := rfl
@[simp] theorem popHead_tpend (n : Nat) (s : State) : (popHead n s).tpend = s.tpend := rfl
@[simp] theorem popHead_acc (n : Nat) (s : State) : (popHead n s).acc = s.acc := rfl
@[simp] theorem popHead_fn (n : Nat) (s : State) : (popHead n s).fn = s.fn := rfl
@[simp] theorem popHead_fresh (n : Nat) (s : State) : (popHead n s).fresh = s.fresh := rfl
@[simp] theorem popHead_out (n : Nat) (s : State) : (popHead n s).out = s.out := rfl
@[simp] theorem popHead_offers (n : Nat) (s : State) : (popHead n s).offers = s.offers := rfl
@[simp] theorem popHead_sched (n : Nat) (s : State) : (popHead n s).sched = s.sched := rfl
@[simp] theorem popHead_cfg (n : Nat) (s : State) : (popHead n s).cfg = s.cfg := rfl

@[simp] theorem emit_buf (e : OutEvent) (s : State) : (emit e s).buf = s.buf := rfl
@[simp] theorem emit_cnt (e : OutEvent) (s : State) : (emit e s).cnt = s.cnt := rfl
@[simp] theorem emit_tpend (e : OutEvent) (s : State) : (emit e s).tpend = s.tpend := rfl
@[simp] theorem emit_acc (e : OutEvent) (s : State) : (emit e s).acc = s.acc := rfl
@[simp] theorem emit_fn (e : OutEvent) (s : State) : (emit e s).fn = s.fn := rfl
@[simp] theorem emit_fresh (e : OutEvent) (s : State) : (emit e s).fresh = s.fresh := rfl
@[simp] theorem emit_out (e : OutEvent) (s : State) : (emit e s).out = s.out ++ [e] := rfl
@[simp] theorem emit_offers (e : OutEvent) (s : State) : (emit e s).offers = s.offers := rfl
@[simp] theorem emit_sched (e : OutEvent) (s : State) : (emit e s).sched = s.sched := rfl
@[simp] theorem emit_cfg (e : OutEvent) (s : State) : (emit e s).cfg = s.cfg := rfl

@[simp] theorem setAcc_buf (a : Acc) (s : State) : (setAcc a s).buf = s.buf := rfl
@[simp] theorem setAcc_cnt (a : Acc) (s : State) : (setAcc a s).cnt = s.cnt := rfl
@[simp] theorem setAcc_tpend (a : Acc) (s : State) : (setAcc a s).tpend = s.tpend := rfl
@[simp] theorem setAcc_acc (a : Acc) (s : State) : (setAcc a s).acc = a := rfl
@[simp] theorem setAcc_fn (a : Acc) (s : State) : (setAcc a s).fn = s.fn := rfl
@[simp] theorem setAcc_fresh (a : Acc) (s : State) : (setAcc a s).fresh = s.fresh := rfl
@[simp] theorem setAcc_out (a : Acc) (s : State) : (setAcc a s).out = s.out := rfl
@[simp] theorem setAcc_offers (a : Acc) (s : State) : (setAcc a s).offers = s.offers := rfl
@[simp] theorem setAcc_sched (a : Acc) (s : State) : (setAcc a s).sched = s.sched := rfl
@[simp] theorem setAcc_cfg (a : Acc) (s : State) : (setAcc a s).cfg = s.cfg := rfl

@[simp] theorem disturbAcc_buf (s : State) : (disturbAcc s).buf = s.buf := rfl
@[simp] theorem disturbAcc_cnt (s : State) : (disturbAcc s).cnt = s.cnt := rfl
@[simp] theorem disturbAcc_tpend (s : State) : (disturbAcc s).tpend = s.tpend := rfl
@[simp] theorem disturbAcc_acc (s : State) : (disturbAcc s).acc = Config.freeAcc s.fresh := rfl
@[simp] theorem disturbAcc_fn (s : State) : (disturbAcc s).fn = s.fn := rfl
@[simp] theorem disturbAcc_fresh (s : State) : (disturbAcc s).fresh = s.fresh + 1 := rfl
@[simp] theorem disturbAcc_out (s : State) : (disturbAcc s).out = s.out := rfl
@[simp] theorem disturbAcc_offers (s : State) : (disturbAcc s).offers = s.offers := rfl
@[simp] theorem disturbAcc_sched (s : State) : (disturbAcc s).sched = s.sched := rfl
@[simp] theorem disturbAcc_cfg (s : State) : (disturbAcc s).cfg = s.cfg := rfl

@[simp] theorem incCnt_buf (s : State) : (incCnt s).buf = s.buf := rfl
@[simp] theorem incCnt_cnt (s : State) : (incCnt s).cnt = satInc s.cfg.cntMax s.cnt := rfl
@[simp] theorem incCnt_tpend (s : State) : (incCnt s).tpend = s.tpend := rfl
@[simp] theorem incCnt_acc (s : State) : (incCnt s).acc = s.acc := rfl
@[simp] theorem incCnt_fn (s : State) : (incCnt s).fn = s.fn := rfl
@[simp] theorem incCnt_fresh (s : State) : (incCnt s).fresh = s.fresh := rfl
@[simp] theorem incCnt_out (s : State) : (incCnt s).out = s.out := rfl
@[simp] theorem incCnt_offers (s : State) : (incCnt s).offers = s.offers := rfl
@[simp] theorem incCnt_sched (s : State) : (incCnt s).sched = s.sched := rfl
@[simp] theorem incCnt_cfg (s : State) : (incCnt s).cfg = s.cfg := rfl

@[simp] theorem acceptOp_buf (w : Packet) (s : State) : (acceptOp w s).buf = s.buf.drop 8 := rfl
@[simp] theorem acceptOp_cnt (w : Packet) (s : State) : (acceptOp w s).cnt = satInc s.cfg.cntMax s.cnt := rfl
@[simp] theorem acceptOp_tpend (w : Packet) (s : State) : (acceptOp w s).tpend = s.tpend := rfl
@[simp] theorem acceptOp_acc (w : Packet) (s : State) : (acceptOp w s).acc = Config.freeAcc s.fresh := rfl
@[simp] theorem acceptOp_fn (w : Packet) (s : State) : (acceptOp w s).fn = s.fn := rfl
@[simp] theorem acceptOp_fresh (w : Packet) (s : State) : (acceptOp w s).fresh = s.fresh + 1 := rfl
@[simp] theorem acceptOp_out (w : Packet) (s : State) : (acceptOp w s).out = s.out ++ [.sample (decPri s.cfg.outW w) (decSec s.cfg.outW w)] := rfl
@[simp] theorem acceptOp_offers (w : Packet) (s : State) : (acceptOp w s).offers = s.offers := rfl
@[simp] theorem acceptOp_sched (w : Packet) (s : State) : (acceptOp w s).sched = s.sched := rfl
@[simp] theorem acceptOp_cfg (w : Packet) (s : State) : (acceptOp w s).cfg = s.cfg := rfl

@[simp] theorem dropOp_buf (s : State) : (dropOp s).buf = s.buf.drop 1 := rfl
@[simp] theorem dropOp_cnt (s : State) : (dropOp s).cnt = s.cnt := rfl
@[simp] theorem dropOp_tpend (s : State) : (dropOp s).tpend = s.tpend := rfl
@[simp] theorem dropOp_acc (s : State) : (dropOp s).acc = Config.freeAcc s.fresh := rfl
@[simp] theorem dropOp_fn (s : State) : (dropOp s).fn = s.fn := rfl
@[simp] theorem dropOp_fresh (s : State) : (dropOp s).fresh = s.fresh + 1 := rfl
@[simp] theorem dropOp_out (s : State) : (dropOp s).out = s.out := rfl
@[simp] theorem dropOp_offers (s : State) : (dropOp s).offers = s.offers := rfl
@[simp] theorem dropOp_sched (s : State) : (dropOp s).sched = s.sched := rfl
@[simp] theorem dropOp_cfg (s : State) : (dropOp s).cfg = s.cfg := rfl

@[simp] theorem reportOp_buf (s : State) : (reportOp s).buf = s.buf := rfl
@[simp] theorem reportOp_cnt (s : State) : (reportOp s).cnt = 0 := rfl
@[simp] theorem reportOp_tpend (s : State) : (reportOp s).tpend = false := rfl
@[simp] theorem reportOp_acc (s : State) : (reportOp s).acc = s.acc := rfl
@[simp] theorem reportOp_fn (s : State) : (reportOp s).fn = s.fn := rfl
@[simp] theorem reportOp_fresh (s : State) : (reportOp s).fresh = s.fresh := rfl
@[simp] theorem reportOp_out (s : State) : (reportOp s).out = s.out ++ [.report s.cnt] := rfl
@[simp] theorem reportOp_offers (s : State) : (reportOp s).offers = s.offers := rfl
@[simp] theorem reportOp_sched (s : State) : (reportOp s).sched = s.sched := rfl
@[simp] theorem reportOp_cfg (s : State) : (reportOp s).cfg = s.cfg := rfl

@[simp] theorem resetOp_buf (s : State) : (resetOp s).buf = [] := rfl
@[simp] theorem resetOp_cnt (s : State) : (resetOp s).cnt = 0 := rfl
@[simp] theorem resetOp_tpend (s : State) : (resetOp s).tpend = false := rfl
@[simp] theorem resetOp_acc (s : State) : (resetOp s).acc = s.acc := rfl
@[simp] theorem resetOp_fn (s : State) : (resetOp s).fn = s.fn := rfl
@[simp] theorem resetOp_fresh (s : State) : (resetOp s).fresh = s.fresh := rfl
@[simp] theorem resetOp_out (s : State) : (resetOp s).out = [] := rfl
@[simp] theorem resetOp_offers (s : State) : (resetOp s).offers = s.offers := rfl
@[simp] theorem resetOp_sched (s : State) : (resetOp s).sched = s.sched := rfl
@[simp] theorem resetOp_cfg (s : State) : (resetOp s).cfg = s.cfg := rfl

end Sys2Proof.Machine
end

