-- ==== Sys2Proof/Laws/Flags.lean ====
section
/-! SUPPORT. What the flags say of the buffer, and what `SEL` selects. -/

namespace Sys2Proof.Machine

@[simp] theorem have8_eq_true_iff (s : State) : have8 s = true ↔ 8 ≤ s.buf.length := decide_eq_true_iff

@[simp] theorem have8_eq_false_iff (s : State) : have8 s = false ↔ s.buf.length < 8 :=
  decide_eq_false_iff_not.trans Nat.not_le

theorem window_eq_none_iff (s : State) : window s = none ↔ s.buf.length < 8 := leadingPkt_eq_none_iff s.buf

theorem valid_of_lt (s : State) (h : s.buf.length < 8) : valid s = false := by
  simp [valid, (window_eq_none_iff s).2 h]

theorem valid_of_ge (s : State) (h : 8 ≤ s.buf.length) : valid s = (crc16 (s.buf.take 8) == 0x0000#16) := by
  rcases hw : window s with _ | w
  · rw [window_eq_none_iff] at hw; omega
  · rw [valid, hw]; exact pktValid_leadingPkt s.buf w hw

/-- `SEL` selects by its three flags (R58). -/
theorem decodeSel_flags (p h v : Bool) :
    decodeSel (BitVec.ofBool p ++ BitVec.ofBool h ++ BitVec.ofBool v) =
      if h then (if v then .accept else .drop) else if p then .report else .wait := by
  revert p h v; decide

theorem selected_eq (s : State) :
    selected s = if have8 s then (if valid s then .accept else .drop)
      else if s.tpend then .report else .wait := decodeSel_flags _ _ _

@[simp] theorem quiescent_eq_true_iff (s : State) :
    quiescent s = true ↔ s.buf.length < 8 ∧ s.tpend = false := by
  rw [quiescent, selected_eq]
  by_cases h8 : have8 s = true
  · have := (have8_eq_true_iff s).1 h8
    by_cases hv : valid s = true <;> simp [h8, hv] <;> omega
  · rw [Bool.not_eq_true] at h8
    have := (have8_eq_false_iff s).1 h8
    by_cases hp : s.tpend = true <;> simp [h8, hp, this]

end Sys2Proof.Machine
end

