-- ==== Sys2Proof/Laws/Exec.lean ====
section
/-! SUPPORT. What each guarded meaning can do, said once: the provers cite these and unfold no meaning. The other
meanings answer one next state, by `rfl`. -/

namespace Sys2Proof.Machine

/-- `ACCEPT` answers a next state exactly on a valid window, and then its body (R88). -/
theorem execAccept_eq_next_iff (s t : State) :
    execAccept s = .next t ↔ ∃ w, window s = some w ∧ pktValid w = true ∧ acceptOp w s = t := by
  rcases hw : window s with _ | w
  · simp [execAccept, hw]
  · by_cases hv : pktValid w = true <;> simp [execAccept, hw, hv]

/-- `DROP` answers a next state exactly on an invalid window, and then its body (R89). -/
theorem execDrop_eq_next_iff (s t : State) :
    execDrop s = .next t ↔ ∃ w, window s = some w ∧ pktValid w = false ∧ dropOp s = t := by
  rcases hw : window s with _ | w
  · simp [execDrop, hw]
  · by_cases hv : pktValid w = true <;> simp [execDrop, hw, hv]

/-- `REPORT` answers a next state exactly when a report is pending and fewer than 8 bytes are held (R120). -/
theorem execReport_eq_next_iff (s t : State) :
    execReport s = .next t ↔ s.tpend = true ∧ s.buf.length < 8 ∧ reportOp s = t := by
  by_cases hp : s.tpend = true <;> by_cases h8 : have8 s = true <;>
    simp [execReport, hp, h8] <;> simp_all

/-- `WAIT` answers a next state exactly when the block is quiescent, and changes nothing (R87). -/
theorem execWait_eq_next_iff (s t : State) :
    execWait s = .next t ↔ quiescent s = true ∧ s = t := by
  by_cases hq : quiescent s = true
  · rw [execWait, if_pos hq]; simp [hq]
  · rw [execWait, if_neg hq]; simp [hq]

/-- The framer's step exists exactly when a window does (R86). -/
theorem framerStep_eq_none_iff (s : State) : framerStep s = none ↔ s.buf.length < 8 := by
  rw [← window_eq_none_iff]
  rcases hw : window s with _ | w <;> simp [framerStep, hw]

/-- The framer's step is `ACCEPT` or `DROP` (R86). -/
theorem framerStep_eq_some (s t : State) (h : framerStep s = some t) :
    execAccept s = .next t ∨ execDrop s = .next t := by
  rcases hw : window s with _ | w
  · simp [framerStep, hw] at h
  · by_cases hv : pktValid w = true
    · left; simp [framerStep, hw, hv] at h; simp [execAccept, hw, hv, h]
    · right; simp [framerStep, hw, hv] at h; simp [execDrop, hw, hv, h]

/-- The framer's step shortens the buffer and touches neither `TPEND` nor the inputs of the run (R91). -/
theorem framerStep_spec (s t : State) (h : framerStep s = some t) :
    t.buf.length < s.buf.length ∧ t.tpend = s.tpend ∧ t.fn = s.fn ∧ t.offers = s.offers ∧
      t.sched = s.sched ∧ t.cfg = s.cfg := by
  have h8 : ¬ s.buf.length < 8 := by rw [← framerStep_eq_none_iff]; simp [h]
  rcases hw : window s with _ | w
  · simp [framerStep, hw] at h
  · by_cases hv : pktValid w = true <;> simp [framerStep, hw, hv] at h <;> subst h <;> simp <;> omega

/-- What the six transitions and the functions never write: the parameters and the inputs of the run. -/
theorem framerSteps_inputs (n : Nat) (s : State) :
    (framerSteps n s).offers = s.offers ∧ (framerSteps n s).sched = s.sched ∧ (framerSteps n s).cfg = s.cfg ∧
      (framerSteps n s).tpend = s.tpend ∧ (framerSteps n s).fn = s.fn := by
  induction n generalizing s with
  | zero => simp [framerSteps]
  | succ n ih =>
    rcases hf : framerStep s with _ | t
    · simp [framerSteps, hf]
    · obtain ⟨-, h1, h2, h3, h4, h5⟩ := framerStep_spec s t hf
      obtain ⟨i1, i2, i3, i4, i5⟩ := ih t
      simp only [framerSteps, hf]
      exact ⟨i1.trans h3, i2.trans h4, i3.trans h5, i4.trans h1, i5.trans h2⟩

/-- `DRAIN` leaves fewer than 8 bytes (R91, R97). -/
theorem framerSteps_lt (n : Nat) (s : State) (h : s.buf.length ≤ n) : (framerSteps n s).buf.length < 8 := by
  induction n generalizing s with
  | zero => simp only [framerSteps]; omega
  | succ n ih =>
    rcases hf : framerStep s with _ | t
    · simp only [framerSteps, hf]; exact (framerStep_eq_none_iff s).1 hf
    · obtain ⟨hl, -⟩ := framerStep_spec s t hf
      simp only [framerSteps, hf]; exact ih t (by omega)

end Sys2Proof.Machine
end

