-- ==== Sys2Proof/Laws/Framing.lean ====
section
/-! SUPPORT. The framing of a byte sequence unfolds one framer step at a time, and a window's bytes give its
sample; where a sequence stands, and what its dropped positions are. -/

namespace Sys2Proof.Machine

/-- Fewer than 8 bytes are left alone (R87). -/
theorem frameSteps_of_lt (n k : Nat) (s : List Byte) (h : s.length < 8) :
    frameSteps n k s = { samples := [], dropped := [], rest := s } := by
  match n, s with
  | 0, s => unfold frameSteps; rfl
  | n + 1, [] | n + 1, [_] | n + 1, [_, _] | n + 1, [_, _, _] | n + 1, [_, _, _, _]
  | n + 1, [_, _, _, _, _] | n + 1, [_, _, _, _, _, _] | n + 1, [_, _, _, _, _, _, _] => rfl
  | n + 1, _ :: _ :: _ :: _ :: _ :: _ :: _ :: _ :: t => simp at h; omega

theorem eight_of_length (s : List Byte) (h : 8 ≤ s.length) :
    ∃ b0 b1 b2 b3 b4 b5 b6 b7 t, s = b0 :: b1 :: b2 :: b3 :: b4 :: b5 :: b6 :: b7 :: t := by
  match s with
  | [] | [_] | [_, _] | [_, _, _] | [_, _, _, _] | [_, _, _, _, _] | [_, _, _, _, _, _]
  | [_, _, _, _, _, _, _] => simp at h
  | b0 :: b1 :: b2 :: b3 :: b4 :: b5 :: b6 :: b7 :: t => exact ⟨_, _, _, _, _, _, _, _, _, rfl⟩

/-- With 8 bytes or more the first step accepts or drops (R86). -/
theorem frameSteps_of_ge (n k : Nat) (s : List Byte) (h : 8 ≤ s.length) :
    frameSteps (n + 1) k s =
      if crc16 (s.take 8) = 0x0000#16 then
        { frameSteps n (k + 8) (s.drop 8) with
          samples := windowSample (s.take 8) :: (frameSteps n (k + 8) (s.drop 8)).samples }
      else
        { frameSteps n (k + 1) (s.drop 1) with
          dropped := (s.take 1).map (Dropped.mk k) ++ (frameSteps n (k + 1) (s.drop 1)).dropped } := by
  obtain ⟨b0, b1, b2, b3, b4, b5, b6, b7, t, rfl⟩ := eight_of_length s h
  rfl

/-- As many steps as there are bytes suffice (R91). -/
theorem frameSteps_fuel (n m k : Nat) (s : List Byte) (h : s.length ≤ n) (h' : s.length ≤ m) :
    frameSteps n k s = frameSteps m k s := by
  induction n generalizing m k s with
  | zero => rw [frameSteps_of_lt _ _ _ (by omega), frameSteps_of_lt _ _ _ (by omega)]
  | succ n ih =>
    by_cases h8 : s.length < 8
    · rw [frameSteps_of_lt _ _ _ h8, frameSteps_of_lt _ _ _ h8]
    · obtain ⟨m, rfl⟩ : ∃ k, m = k + 1 := ⟨m - 1, by omega⟩
      rw [frameSteps_of_ge _ _ _ (by omega), frameSteps_of_ge _ _ _ (by omega)]
      rw [ih m _ (s.drop 8) (by simp; omega) (by simp; omega), ih m _ (s.drop 1) (by simp; omega) (by simp; omega)]

theorem frameFrom_of_lt (k : Nat) (s : List Byte) (h : s.length < 8) :
    frameFrom k s = { samples := [], dropped := [], rest := s } := frameSteps_of_lt _ _ _ h

theorem frameFrom_of_ge (k : Nat) (s : List Byte) (h : 8 ≤ s.length) :
    frameFrom k s =
      if crc16 (s.take 8) = 0x0000#16 then
        { frameFrom (k + 8) (s.drop 8) with
          samples := windowSample (s.take 8) :: (frameFrom (k + 8) (s.drop 8)).samples }
      else
        { frameFrom (k + 1) (s.drop 1) with
          dropped := (s.take 1).map (Dropped.mk k) ++ (frameFrom (k + 1) (s.drop 1)).dropped } := by
  unfold frameFrom
  rw [frameSteps_fuel s.length (s.length + 1) k s (by omega) (by omega), frameSteps_of_ge _ _ _ h,
    frameSteps_fuel s.length (s.drop 8).length (k + 8) (s.drop 8) (by simp) (by simp),
    frameSteps_fuel s.length (s.drop 1).length (k + 1) (s.drop 1) (by simp) (by simp)]

/-- Where a sequence stands moves the positions of its drops and nothing else. -/
theorem frameFrom_add (j k : Nat) (s : List Byte) :
    frameFrom (j + k) s = { frameFrom k s with dropped := (frameFrom k s).dropped.map (Dropped.shift j) } := by
  induction h : s.length using Nat.strong_induction_on generalizing k s with
  | _ n ih =>
    by_cases h8 : s.length < 8
    · rw [frameFrom_of_lt _ _ h8, frameFrom_of_lt _ _ h8]; rfl
    · rw [frameFrom_of_ge _ _ (by omega), frameFrom_of_ge k _ (by omega), Nat.add_assoc, Nat.add_assoc,
        ih (s.drop 8).length (by simp; omega) (k + 8) _ rfl, ih (s.drop 1).length (by simp; omega) (k + 1) _ rfl]
      split <;> simp [Dropped.shift, Function.comp_def]

theorem frameFrom_eq_shift (k : Nat) (s : List Byte) :
    frameFrom k s = { frame s with dropped := (frame s).dropped.map (Dropped.shift k) } := frameFrom_add k 0 s

/-- A dropped position is that of the byte in the sequence (R98). -/
theorem getElem?_of_mem_dropped (k : Nat) (s : List Byte) (d : Dropped) (hd : d ∈ (frameFrom k s).dropped) :
    k ≤ d.pos ∧ s[d.pos - k]? = some d.byte := by
  induction h : s.length using Nat.strong_induction_on generalizing k s with
  | _ n ih =>
    by_cases h8 : s.length < 8
    · rw [frameFrom_of_lt _ _ h8] at hd; simp at hd
    · have step (m : Nat) (hm : 0 < m) (h' : d ∈ (frameFrom (k + m) (s.drop m)).dropped) :
          k ≤ d.pos ∧ s[d.pos - k]? = some d.byte := by
        obtain ⟨h1, h2⟩ := ih (s.drop m).length (by simp; omega) (k + m) (s.drop m) h' rfl
        rw [List.getElem?_drop, show m + (d.pos - (k + m)) = d.pos - k by omega] at h2
        exact ⟨by omega, h2⟩
      rw [frameFrom_of_ge _ _ (by omega)] at hd
      split at hd
      · exact step 8 (by omega) hd
      · rcases List.mem_append.1 hd with hd | hd
        · match s, hd with
          | b :: _, hd => simp at hd; subst hd; simp
        · exact step 1 (by omega) hd

/-- Drops come in the order of their positions (R89, R98). -/
theorem dropped_pairwise_lt (k : Nat) (s : List Byte) :
    (frameFrom k s).dropped.Pairwise fun d e => d.pos < e.pos := by
  induction h : s.length using Nat.strong_induction_on generalizing k s with
  | _ n ih =>
    by_cases h8 : s.length < 8
    · rw [frameFrom_of_lt _ _ h8]; exact .nil
    · rw [frameFrom_of_ge _ _ (by omega)]
      split
      · exact ih (s.drop 8).length (by simp; omega) _ _ rfl
      · match s with
        | b :: s =>
          refine List.pairwise_cons.2 ⟨fun d hd => ?_, ih s.length (by simp at h; omega) _ _ rfl⟩
          exact (getElem?_of_mem_dropped _ _ d hd).1

end Sys2Proof.Machine
end

