-- ==== Sys2Proof/Laws/PerInstr.lean ====
section
/-! SUPPORT. Statements made of every operation as syntax, one lemma per constructor. `EncodeWidth`: an operation
encodes to as many bytes as its format has (`EV` 11 bits in two bytes, `SEL` 3 bits in one, `PKT` 64 bits in eight;
30_encoding.md R51), or as its operands need where no bits select it. -/

namespace Sys2Proof.Laws.EncodeWidth

/-- The bytes a site takes; none where the operand is a byte sequence of any length. -/
def siteWidth : Site → Option Nat
  | .port => some 2
  | .select => some 1
  | .call .crcCheck => some 8
  | .call .ext24 => some 9
  | .call .decPri => some 8
  | .call .decSec => some 8
  | .call .sample => some 6
  | .call .crcInit => some 0
  | .call .crcXorb => some 1
  | .call .crcShift => some 0
  | .call .crcByte => some 1
  | .call .crc16 => none
  | .call .cntInc => some 0
  | .call .drain => some 0
  | .call .append => none
  | .call .packet => some 8

/-- The encoding has its format's width. -/
def Statement (i : Instr) : Prop := ∀ n, siteWidth (siteOf i) = some n → (encode i).length = n

theorem reset : Statement .reset := fun _ h => Option.some.inj h
theorem push (b : Byte) : Statement (.push b) := fun _ h => Option.some.inj h
theorem tick : Statement .tick := fun _ h => Option.some.inj h
theorem accept : Statement .accept := fun _ h => Option.some.inj h
theorem drop : Statement .drop := fun _ h => Option.some.inj h
theorem report : Statement .report := fun _ h => Option.some.inj h
theorem wait : Statement .wait := fun _ h => Option.some.inj h
theorem crcCheck (w : Packet) : Statement (.crcCheck w) := fun _ h => Option.some.inj h
theorem ext24 (k : FieldPos) (w : Packet) : Statement (.ext24 k w) := fun _ h => Option.some.inj h
theorem decPri (w : Packet) : Statement (.decPri w) := fun _ h => Option.some.inj h
theorem decSec (w : Packet) : Statement (.decSec w) := fun _ h => Option.some.inj h
theorem sample (pri sec : Int) : Statement (.sample pri sec) := fun _ h => Option.some.inj h
theorem crcInit : Statement .crcInit := fun _ h => Option.some.inj h
theorem crcXorb (b : Byte) : Statement (.crcXorb b) := fun _ h => Option.some.inj h
theorem crcShift : Statement .crcShift := fun _ h => Option.some.inj h
theorem crcByte (b : Byte) : Statement (.crcByte b) := fun _ h => Option.some.inj h
theorem crc16 (s : List Byte) : Statement (.crc16 s) := fun _ h => by cases h
theorem cntInc : Statement .cntInc := fun _ h => Option.some.inj h
theorem drain : Statement .drain := fun _ h => Option.some.inj h
theorem append (s : List Byte) : Statement (.append s) := fun _ h => by cases h
theorem packet (p s : Int) : Statement (.packet p s) := fun _ h => Option.some.inj h
theorem noEvent : Statement .noEvent := fun _ h => Option.some.inj h

end Sys2Proof.Laws.EncodeWidth
end

