-- ==== Sys2Proof/Laws/Step.lean ====
section
/-! SUPPORT. What one step can do, said once. -/

namespace Sys2Proof.Machine

/-- The block's selected step always has a next state. -/
theorem exec_selected (s : State) : ∃ t, exec (selected s) s = .next t := by
  rw [selected_eq]
  by_cases h8 : have8 s = true
  · have hl := (have8_eq_true_iff s).1 h8
    rcases hw : window s with _ | w
    · rw [window_eq_none_iff] at hw; omega
    · by_cases hv : pktValid w = true
      · exact ⟨acceptOp w s, by simp [h8, valid, hw, hv, exec, execAccept]⟩
      · exact ⟨dropOp s, by simp [h8, valid, hw, hv, exec, execDrop]⟩
  · by_cases hp : s.tpend = true
    · exact ⟨reportOp s, by simp [h8, hp, exec, execReport]⟩
    · refine ⟨s, ?_⟩
      simp only [h8, hp, exec, if_false, Bool.false_eq_true]
      exact (execWait_eq_next_iff s s).2 ⟨(quiescent_eq_true_iff s).2 ⟨by simpa using h8, by simpa using hp⟩, rfl⟩

/-- Every event a word can hold is one of four. -/
theorem decodeEv_cases (w : EvWord) :
    decodeEv w = .reset ∨ (∃ b, decodeEv w = .push b) ∨ decodeEv w = .tick ∨ decodeEv w = .noEvent := by
  unfold decodeEv
  split
  · exact .inl rfl
  · split
    · exact .inr (.inl ⟨_, rfl⟩)
    · split
      · exact .inr (.inr (.inl rfl))
      · exact .inr (.inr (.inr rfl))

/-- What a fetch can give: the block's selected step, or an event of the host; never another operation. On both the
parts of the block (`buf`, `cnt`, `tpend`, `acc`), the trace and the parameters are as they were. -/
theorem fetch_cases (s : State) :
    ((fetch s).instr = selected (fetch s).state ∨ (fetch s).instr = .reset ∨ (∃ b, (fetch s).instr = .push b) ∨
      (fetch s).instr = .tick ∨ (fetch s).instr = .noEvent) ∧
    ∃ o r, (fetch s).state = { s with offers := o, sched := r } := by
  have host : ∀ u : State, (∃ o r, u = { s with offers := o, sched := r }) →
      ((hostTurn u).instr = selected (hostTurn u).state ∨ (hostTurn u).instr = .reset ∨
        (∃ b, (hostTurn u).instr = .push b) ∨ (hostTurn u).instr = .tick ∨ (hostTurn u).instr = .noEvent) ∧
      ∃ o r, (hostTurn u).state = { s with offers := o, sched := r } := by
    rintro u ⟨o, r, rfl⟩
    unfold hostTurn
    split
    · exact ⟨by simp, _, _, rfl⟩
    · split
      · split
        · exact ⟨by simp, _, _, rfl⟩
        · exact ⟨.inl rfl, _, _, rfl⟩
      · exact ⟨.inr (decodeEv_cases _), _, _, rfl⟩
  unfold fetch
  split
  · exact ⟨.inl rfl, _, _, rfl⟩
  · exact host _ ⟨_, _, rfl⟩
  · split
    · exact ⟨.inl rfl, s.offers, s.sched, rfl⟩
    · split
      · exact host s ⟨s.offers, s.sched, rfl⟩
      · exact ⟨.inl rfl, s.offers, s.sched, rfl⟩

end Sys2Proof.Machine
end

