-- ==== Sys2Proof/Laws/Run.lean ====
section
/-! SUPPORT. Runs of labels: what an enabled transition does, said once, and how runs are cut. -/

namespace Sys2Proof.Machine

/-- All that an enabled transition can be and do (R57): the case split for every statement about runs. -/
theorem exec_enabled_cases (i : Instr) (s t : State) (he : enabled i s = true) (hx : exec i s = .next t) :
    (i = .reset ∧ t = resetOp s) ∨
    (∃ b, i = .push b ∧ ready s = true ∧ t = appendTail b s) ∨
    (i = .tick ∧ t = { s with tpend := true }) ∨
    (i = .accept ∧ ∃ w, window s = some w ∧ pktValid w = true ∧ t = acceptOp w s) ∨
    (i = .drop ∧ ∃ w, window s = some w ∧ pktValid w = false ∧ t = dropOp s) ∨
    (i = .report ∧ s.tpend = true ∧ s.buf.length < 8 ∧ t = reportOp s) := by
  cases i <;> simp [enabled] at he <;>
    simp only [exec, execAccept_eq_next_iff, execDrop_eq_next_iff, execReport_eq_next_iff] at hx
  · cases hx; simp
  · simp [execPush, he] at hx; cases hx; simp [he]
  · cases hx; simp
  · obtain ⟨w, h1, h2, rfl⟩ := hx; simp [h1, h2]
  · obtain ⟨w, h1, h2, rfl⟩ := hx; simp [h1, h2]
  · obtain ⟨h1, h2, rfl⟩ := hx; simp [h1, h2]

/-- The block's selected step is `WAIT` or an enabled transition (R58). -/
theorem selected_wait_or_enabled (s : State) : selected s = .wait ∨ enabled (selected s) s = true := by
  rw [selected_eq]
  by_cases h8 : have8 s = true <;> by_cases hv : valid s = true <;> by_cases hp : s.tpend = true <;>
    simp [h8, hv, hp, enabled]

@[simp] theorem runLabels_nil (s : State) : runLabels [] s = some s := rfl

/-- A run that starts with `i` takes `i` where it is enabled, and goes on. -/
theorem runLabels_cons_iff (i : Instr) (is : List Instr) (s t : State) :
    runLabels (i :: is) s = some t ↔
      ∃ u, enabled i s = true ∧ exec i s = .next u ∧ runLabels is u = some t := by
  simp only [runLabels]
  by_cases h : enabled i s = true
  · simp only [h, if_true, true_and]
    rcases exec i s with u | u | u <;> simp
  · simp [h]

/-- A run cut in two. -/
theorem runLabels_append_iff (a b : List Instr) (s t : State) :
    runLabels (a ++ b) s = some t ↔ ∃ u, runLabels a s = some u ∧ runLabels b u = some t := by
  induction a generalizing s with
  | nil => simp
  | cons i is ih =>
    simp only [List.cons_append, runLabels_cons_iff, ih]
    constructor
    · rintro ⟨u, he, hx, v, h1, h2⟩; exact ⟨v, ⟨u, he, hx, h1⟩, h2⟩
    · rintro ⟨v, ⟨u, he, hx, h1⟩, h2⟩; exact ⟨u, he, hx, v, h1, h2⟩

@[simp] theorem samplesOf_append (a b : List OutEvent) : samplesOf (a ++ b) = samplesOf a ++ samplesOf b := by
  simp [samplesOf]

@[simp] theorem reportsOf_append (a b : List OutEvent) : reportsOf (a ++ b) = reportsOf a ++ reportsOf b := by
  simp [reportsOf]

end Sys2Proof.Machine
end

