-- ==== Sys2Proof/Laws/Signals.lean ====
section
/-! SUPPORT. The small lemmas of the output signals: which operation pulses what. -/

namespace Sys2Proof.Machine

@[simp] theorem signalsOf_sampleValid (i : Instr) (s : State) :
    (signalsOf i s).sampleValid = decide (i = .accept) := rfl

@[simp] theorem signalsOf_reportValid (i : Instr) (s : State) :
    (signalsOf i s).reportValid = decide (i = .report) := rfl

/-- Only `ACCEPT` and `REPORT` put an event on the signals (R23). -/
theorem carried_signalsOf_other (i : Instr) (s : State) (ha : i ≠ .accept) (hr : i ≠ .report) :
    carried (signalsOf i s) = [] := by
  simp [carried, ha, hr]

/-- A count that fits is not cut (R117). -/
theorem cutTo_of_lt (w n : Nat) (h : n < 2 ^ w) : cutTo (some w) n = n := Nat.mod_eq_of_lt h

@[simp] theorem cutTo_none (n : Nat) : cutTo none n = n := rfl

end Sys2Proof.Machine
end

