-- ==== Sys2Proof/Tests/Slice0.lean ====
section
/-! SUPPORT. The model's own tests. Expected values stand in the spec (spec/95_test_vectors.md and the examples of the
rules named at each test). Three parts: what is refused and decoded, one step of each operation, and for every
obligation with hypotheses a witness that meets them. -/

namespace Sys2Proof.Tests

set_option Elab.async false

open Sys2Proof Sys2Proof.Machine

/-! ### Helpers -/

/-- The reset state with a buffer, a counter and a pending bit. -/
def st (buf : List Byte) (cnt : Nat) (tpend : Bool) : State :=
  { State.reset with buf := buf, cnt := cnt, tpend := tpend }

/-- The same with an unbounded buffer and counter. -/
def wide (buf : List Byte) (cnt : Nat) (tpend : Bool) : State :=
  { st buf cnt tpend with cfg := { bufCap := none, cntW := none, outW := 24 } }

/-- Packet A, `PACKET 100 10`. -/
def pkA : List Byte := [0x00#8, 0x00#8, 0x64#8, 0x00#8, 0x00#8, 0x0A#8, 0x9F#8, 0x2C#8]
/-- Packet B, `PACKET -100 -1`. -/
def pkB : List Byte := [0xFF#8, 0xFF#8, 0x9C#8, 0xFF#8, 0xFF#8, 0xFF#8, 0x1F#8, 0xD0#8]
/-- The first window of V-F4, with CRC `0x35E6`. -/
def bad : List Byte := [0x12#8, 0x34#8, 0x56#8, 0x00#8, 0x30#8, 0x39#8, 0x00#8, 0x3A#8]
/-- Packet A as a word. -/
def wA : Packet := 0x00006400000A9F2C#64
/-- Packet C, `PACKET 8388607 -8388608`, as a word. -/
def wC : Packet := 0x7FFFFF8000002E3C#64

/-- A part of the next state; nothing where the operation stops. -/
def part {α : Type} (f : State → α) : Result → Option α
  | .next s => some (f s)
  | .fault _ => none
  | .refused _ => none

/-- The next state whole. -/
def answer (r : Result) : Option State := part id r

/-- The refusal an operation answers with. -/
def refusal : Result → Option Refusal
  | .refused e => some e
  | .next _ => none
  | .fault _ => none

/-- Whether two outcomes of bytes agree on the operation. -/
def reads (d : Decoded) (i : Instr) : Bool := decide (d = .ok i)

theorem exists_of_part {r : Result} {p : State → Bool} (h : part p r = some true) :
    ∃ t, r = .next t ∧ p t = true := by
  match r with
  | .next s => exact ⟨s, rfl, by simpa [part] using h⟩
  | .fault _ => cases h
  | .refused _ => cases h

theorem exists_of_run {ls : List Instr} {s : State} {p : State → Bool}
    (h : (runLabels ls s).map p = some true) : ∃ t, runLabels ls s = some t ∧ p t = true := by
  rcases hr : runLabels ls s with _ | t
  · simp [hr] at h
  · exact ⟨t, rfl, by simpa [hr] using h⟩

/-! ### Well-formedness: what is refused (R54, R66, R108) -/

theorem test_wf_packet_primary_too_big : (Instr.packet 8388608 0).wellFormed = false := by decide
theorem test_wf_packet_primary_too_small : (Instr.packet (-8388609) 0).wellFormed = false := by decide
theorem test_wf_packet_secondary_too_big : (Instr.packet 0 8388608).wellFormed = false := by decide
theorem test_wf_packet_secondary_too_small : (Instr.packet 0 (-8388609)).wellFormed = false := by decide
theorem test_wf_sample_primary_too_big : (Instr.sample 16777116 0).wellFormed = false := by decide
theorem test_wf_sample_secondary_too_small : (Instr.sample 0 (-8388609)).wellFormed = false := by decide
theorem test_wf_ends_of_range : (Instr.packet (-8388608) 8388607).wellFormed = true := by decide
theorem test_params_ends_of_range :
    ({ bufCap := some 8, cntW := some 1, outW := 24 } : Config.Params).wf = true ∧
    ({ bufCap := some 7, cntW := some 1, outW := 24 } : Config.Params).wf = false ∧
    ({ bufCap := some 8, cntW := some 0, outW := 24 } : Config.Params).wf = false ∧
    ({ bufCap := some 8, cntW := some 1, outW := 23 } : Config.Params).wf = false := by decide

/-! ### Decoding: each operation by a word written out from its row -/

/-- `1tvdddddddd`: every other bit ignored (R56). -/
theorem test_decode_reset :
    decodeTableWord 16 0b10000000000 = some .reset ∧ decodeTableWord 16 0b11111111111 = some .reset := by decide
/-- `0t1bbbbbbbb`; with `tick` set as well the `PUSH` comes first (R59). -/
theorem test_decode_push :
    decodeTableWord 16 0b00110011111 = some (.push 0x9F#8) ∧
    decodeTableWord 16 0b01100000000 = some (.push 0x00#8) := by decide
/-- What is left of a word after its first event: the `TICK` of `0x3hh`, and nothing after `RESET` (R56, R59). -/
theorem test_decode_evRest :
    evRest 0x39F#11 = [0x29F#11] ∧ (evRest 0x39F#11).map decodeEv = [.tick] ∧ evRest 0x19F#11 = [] ∧
    evRest 0x200#11 = [] ∧ evRest 0x000#11 = [] ∧ evRest 0x7FF#11 = [] := by decide
/-- `01vdddddddd` with `v = 0`. -/
theorem test_decode_tick :
    decodeTableWord 16 0b01000000000 = some .tick ∧ decodeTableWord 16 0b01011111111 = some .tick := by decide
/-- Mask `0x700`, match `0x000`. -/
theorem test_decode_noEvent :
    decodeTableWord 16 0b00000000000 = some .noEvent ∧ decodeTableWord 16 0b00011111111 = some .noEvent := by decide
/-- An `EV` word is 11 bits wide (R51). -/
theorem test_decode_port_rejects :
    decode .port [0x00#8, 0x08#8] = .reject .highBits ∧ decode .port [0x00#8] = .reject .length := by decide
/-- `p11`, `p10`, `10v`, `00v`; the two unreachable values are `WAIT` and `REPORT` (R58, R61). -/
theorem test_decode_select :
    [0b000, 0b001, 0b010, 0b011, 0b100, 0b101, 0b110, 0b111].map (decodeTableWord 8) =
      [some .wait, some .wait, some .drop, some .accept, some .report, some .report, some .drop, some .accept] := by
  decide
theorem test_decode_select_rejects :
    decode .select [0x08#8] = .reject .highBits ∧ decode .select [] = .reject .length := by decide
/-- `PKT`: first-arriving byte in bits 63:56 (R53). -/
theorem test_decode_crcCheck : decodeTableWord 64 0x00006400000A9F2C = some (.crcCheck wA) := by decide
theorem test_decode_calls_on_a_window :
    reads (decode (.call .crcCheck) pkA) (.crcCheck wA) ∧ reads (decode (.call .decPri) pkA) (.decPri wA) ∧
    reads (decode (.call .decSec) pkA) (.decSec wA) ∧ reads (decode (.call .ext24) (0x00#8 :: pkA)) (.ext24 .k0 wA) ∧
    reads (decode (.call .ext24) (0x03#8 :: pkA)) (.ext24 .k3 wA) := by decide
/-- `k` is 0 or 3, no other value (R104). -/
theorem test_decode_ext24_rejects : decode (.call .ext24) (0x01#8 :: pkA) = .reject .fieldPos := by decide
theorem test_decode_calls_on_bytes :
    decode (.call .crcXorb) [0x01#8] = .ok (.crcXorb 0x01#8) ∧
    decode (.call .crcByte) [0xFF#8] = .ok (.crcByte 0xFF#8) ∧
    decode (.call .crc16) [0x41#8] = .ok (.crc16 [0x41#8]) ∧ decode (.call .crc16) [] = .ok (.crc16 []) ∧
    decode (.call .append) [0xAA#8, 0x55#8] = .ok (.append [0xAA#8, 0x55#8]) := by decide
theorem test_decode_calls_without_operands :
    decode (.call .crcInit) [] = .ok .crcInit ∧ decode (.call .crcShift) [] = .ok .crcShift ∧
    decode (.call .cntInc) [] = .ok .cntInc ∧ decode (.call .drain) [] = .ok .drain ∧
    decode (.call .drain) [0x00#8] = .reject .length := by decide
/-- Two's complement, big-endian (R54, V-D1). -/
theorem test_decode_sample :
    decode (.call .sample) [0x80#8, 0x00#8, 0x00#8, 0xFF#8, 0xFF#8, 0x9C#8] = .ok (.sample (-8388608) (-100)) := by
  decide
/-- `PACKET -100 -1` = `FF FF 9C FF FF FF 1F D0` (R66); with the CRC bytes swapped it is no packet. -/
theorem test_decode_packet : decode (.call .packet) pkB = .ok (.packet (-100) (-1)) := by decide +kernel
theorem test_decode_packet_rejects :
    decode (.call .packet) [0x00#8, 0x00#8, 0x64#8, 0x00#8, 0x00#8, 0x0A#8, 0x2C#8, 0x9F#8] =
      .reject .packetCrc := by decide +kernel
/-- The script encodings `0x400`, `0x200`, `0x1hh` (R65). -/
theorem test_encode_events :
    encode .reset = [0x00#8, 0x04#8] ∧ encode .tick = [0x00#8, 0x02#8] ∧ encode (.push 0x9F#8) = [0x9F#8, 0x01#8] ∧
    encode .noEvent = [0x00#8, 0x00#8] := by decide

/-! ### One step of each operation -/

/-- V-R6. -/
theorem test_reset :
    answer (exec .reset { st [0xAA#8, 0x55#8] 3 true with out := [.report 7] }) = some State.reset := by decide
/-- R85's example. -/
theorem test_push : answer (exec (.push 0x00#8) (st [0x00#8, 0x00#8, 0x64#8] 0 false)) = some (st [0x00#8, 0x00#8, 0x64#8, 0x00#8] 0 false) := by decide
/-- At `LEN = BUF_CAP` the word has no `PUSH` effect (R56). -/
theorem test_push_full : answer (exec (.push 0xAA#8) (st pkA 0 false)) = some (st pkA 0 false) := by decide
/-- R118's example, and a merged second `TICK` (R119). -/
theorem test_tick : answer (exec .tick (st [] 4 false)) = some (st [] 4 true) ∧ answer (exec .tick (st [] 4 true)) = some (st [] 4 true) := by
  decide
/-- R88's example. -/
theorem test_accept :
    part blockView (exec .accept (st (pkA ++ [0xFF#8, 0xFF#8]) 4 true)) =
      some { buf := [0xFF#8, 0xFF#8], cnt := 5, tpend := true, out := [.sample 100 10], cfg := Config.Params.default } := by
  decide +kernel
/-- V-R5: at the greatest count the counter stays. -/
theorem test_accept_saturates :
    part (fun t => (t.cnt, t.out)) (exec .accept { st pkB 3 false with cfg := { bufCap := some 8, cntW := some 2, outW := 32 } }) =
      some (3, [.sample (-100) (-1)]) := by decide +kernel
/-- R89's example. -/
theorem test_drop :
    part blockView (exec .drop (st bad 2 true)) =
      some { buf := bad.drop 1, cnt := 2, tpend := true, out := [], cfg := Config.Params.default } := by decide +kernel
/-- R120's example. -/
theorem test_report :
    answer (exec .report (st [0xAA#8] 2 true)) = some { st [0xAA#8] 0 false with out := [.report 2] } := by decide
/-- A report waits for the drain (R121). -/
theorem test_report_waits : refusal (exec .report (st pkA 2 true)) = some (.notEnabled "REPORT") := by decide
/-- V-F1 before its last byte. -/
theorem test_wait : answer (exec .wait (st (pkA.take 7) 1 false)) = some (st (pkA.take 7) 1 false) := by decide
theorem test_noEvent : answer (exec .noEvent (st bad 1 true)) = some (st bad 1 true) := by decide
theorem test_crcInit : answer (exec .crcInit State.reset) = some { State.reset with acc := 0xFFFF#16 } := by decide
/-- R69's example. -/
theorem test_crcXorb :
    answer (exec (.crcXorb 0x01#8) { State.reset with acc := 0xFFFF#16 }) = some { State.reset with acc := 0xFFFE#16 } := by decide
/-- V-C1. -/
theorem test_crcShift :
    [0x0000#16, 0x0001#16, 0x0002#16, 0x0003#16, 0x8000#16, 0x8001#16, 0xFFFF#16, 0xFFFE#16, 0xA001#16, 0x4003#16].map
        (fun a => part State.acc (exec .crcShift { State.reset with acc := a })) =
      [some 0x0000#16, some 0xA001#16, some 0x0001#16, some 0xA000#16, some 0x4000#16, some 0xE001#16, some 0xDFFE#16,
        some 0x7FFF#16, some 0xF001#16, some 0x8000#16] := by decide
/-- V-C2. -/
theorem test_crcByte :
    [(0xFFFF#16, 0x00#8), (0xFFFF#16, 0x01#8), (0xFFFF#16, 0xFF#8), (0x0000#16, 0x80#8), (0x1234#16, 0x56#8),
        (0x2C9F#16, 0x9F#8), (0x002C#16, 0x2C#8)].map
        (fun p => part State.acc (exec (.crcByte p.2) { State.reset with acc := p.1 })) =
      [some 0x40BF#16, some 0x807E#16, some 0x00FF#16, some 0xA001#16, some 0xE993#16, some 0x002C#16,
        some 0x0000#16] := by decide +kernel
/-- V-C4 and V-C9. -/
theorem test_crc16 :
    [[], [0x41#8], [0x00#8, 0x00#8], [0x31#8, 0x32#8, 0x33#8, 0x34#8, 0x35#8, 0x36#8, 0x37#8, 0x38#8, 0x39#8]].map
        (fun bs => part State.acc (exec (.crc16 bs) State.reset)) =
      [some 0xFFFF#16, some 0x707F#16, some 0xB001#16, some 0x4B37#16] := by decide +kernel
/-- V-C6: packet A, then with its CRC bytes swapped. -/
theorem test_crcCheck :
    [wA, 0x00006400000A2C9F#64].map (fun w => part (fun t => (t.acc, t.fn.checkValid)) (exec (.crcCheck w) State.reset)) =
      [some (0x0000#16, true), some (0x8534#16, false)] := by decide +kernel
/-- R104's example. -/
theorem test_ext24 :
    part (fun t => t.fn.field) (exec (.ext24 .k0 wA) State.reset) = some 0x000064#24 ∧
    part (fun t => t.fn.field) (exec (.ext24 .k3 wA) State.reset) = some 0x00000A#24 := by decide
/-- V-D2, first row. -/
theorem test_decPri : part (fun t => t.fn.pri) (exec (.decPri wC) State.reset) = some 8388607 := by decide
theorem test_decSec : part (fun t => t.fn.sec) (exec (.decSec wC) State.reset) = some (-8388608) := by decide
/-- V-D1: the 32-bit output of `FF FF 9C`. -/
theorem test_outBits : outBits 32 (sextOut 32 0xFFFF9C#24) = 0xFFFFFF9C#32 := by decide
/-- R107's example. -/
theorem test_sample :
    answer (exec (.sample 12345 15000) State.reset) = some { State.reset with out := [.sample 12345 15000] } := by decide
/-- R116's example. -/
theorem test_cntInc : answer (exec .cntInc (st [] 4 false)) = some (st [] 5 false) := by decide
/-- R92's example. -/
theorem test_drain :
    part (fun t => (t.buf, t.out)) (exec .drain (wide (pkA ++ pkB) 0 false)) =
      some ([], [.sample 100 10, .sample (-100) (-1)]) := by decide +kernel
/-- With `BUF_CAP = 8` the ninth byte waits for a framer step; with no bound none is taken (R93). -/
theorem test_append :
    part (fun t => (t.buf, t.out)) (exec (.append [0xFF#8]) (st pkA 0 false)) = some ([0xFF#8], [.sample 100 10]) ∧
    part (fun t => (t.buf, t.out)) (exec (.append [0xFF#8]) (wide pkA 0 false)) = some (pkA ++ [0xFF#8], []) := by
  decide +kernel
/-- R66's examples. -/
theorem test_packet :
    part (fun t => t.fn.packet) (exec (.packet 100 10) State.reset) = some pkA ∧
    part (fun t => t.fn.packet) (exec (.packet (-100) (-1)) State.reset) = some pkB := by decide +kernel

/-! ### Steps, cycles, scripts -/

theorem test_step_runs_the_offered_byte :
    answer (step (State.reset.withFetchWord 16 0x19F)) = some (st [0x9F#8] 0 false) := by decide
theorem test_step_runs_the_selected_accept :
    part (fun t => (t.buf, t.cnt, t.out)) (step (State.reset.withFetchWord 8 0b011)) = some ([], 1, [.sample 0 0]) := by
  decide +kernel
theorem test_step_runs_the_window :
    part (fun t => (t.buf, t.out)) (step (State.reset.withFetchWord 64 0x00006400000A9F2C)) =
      some ([], [.sample 100 10]) := by decide +kernel
theorem test_step_waits : answer (step State.reset) = some State.reset := by decide
/-- R59: a `TICK` in the cycle of a `REPORT` leaves `TPEND = 1`. -/
theorem test_cycle_report_then_tick :
    answer (cycle 0x200#11 (st [] 2 true)) = some { st [] 0 true with out := [.report 2] } := by decide
/-- R163: with `rst = 1` a cycle pulses nothing; without, the `ACCEPT` of packet A pulses its sample. -/
theorem test_cycle_signals :
    carried (cycleSignals 0x400#11 (st pkA 2 false)) = [] ∧
    carried (cycleSignals 0x000#11 (st pkA 2 false)) = [.sample 100 10] ∧
    carried (cycleSignals 0x400#11 (st [] 2 true)) = [] ∧
    carried (cycleSignals 0x000#11 (st [] 2 true)) = [.report 2] := by decide +kernel
/-- R23: a host's turn pulses nothing although `SEL` names `REPORT`; the block's turn does. -/
theorem test_step_signals :
    carried (stepSignals { st [] 2 true with sched := [.host], offers := [0x19F#11] }) = [] ∧
    carried (stepSignals { st [] 2 true with sched := [.block], offers := [0x19F#11] }) = [.report 2] := by decide +kernel
/-- The end of V-R1: the last byte of a packet, then a `TICK`. -/
theorem test_script :
    part (fun t => (t.buf, t.cnt, t.out)) (runScript [.push 0x2C#8, .tick] false (st (pkA.take 7) 1 false)) =
      some ([], 0, [.sample 100 10, .report 2]) := by decide +kernel
/-- R111: 100 stands for 1/10, 10 for 1. -/
theorem test_physical : priPhysical (-100) = -1 / 10 ∧ secPhysical 10 = 1 := by
  constructor <;> norm_num [priPhysical, secPhysical, Config.priDiv, Config.secDiv]

/-! ### Witnesses: for every obligation with hypotheses, a state and operands that meet them -/

theorem witness_ResetEventClearsTheBlock :
    (0x7FF#11 : EvWord).getLsbD 10 = true ∧ (st pkA 1 true).cfg.wf = true ∧
    ∃ t, exec .reset (st pkA 1 true) = .next t := ⟨by decide, by decide, _, rfl⟩

theorem witness_RunsDependOnlyOnTheBlocksState_restart : (st pkA 3 true).cfg = State.reset.cfg ∧ st pkA 3 true ≠ State.reset := by decide

theorem witness_RunsDependOnlyOnTheBlocksState :
    blockView (st pkA 3 true) = blockView { st pkA 3 true with acc := 0xFFFF#16 } ∧
    st pkA 3 true ≠ { st pkA 3 true with acc := 0xFFFF#16 } := by decide

/-- Each of the six transitions is enabled somewhere and answers a next state there. -/
theorem witness_OnlyTheListedStepsWrite :
    (enabled .reset State.reset = true ∧ part (fun _ => true) (exec .reset State.reset) = some true) ∧
    (enabled (.push 0#8) State.reset = true ∧ part (fun _ => true) (exec (.push 0#8) State.reset) = some true) ∧
    (enabled .tick State.reset = true ∧ part (fun _ => true) (exec .tick State.reset) = some true) ∧
    (enabled .accept (st pkA 0 false) = true ∧ part (fun _ => true) (exec .accept (st pkA 0 false)) = some true) ∧
    (enabled .drop (st bad 0 false) = true ∧ part (fun _ => true) (exec .drop (st bad 0 false)) = some true) ∧
    (enabled .report (st [] 0 true) = true ∧ part (fun _ => true) (exec .report (st [] 0 true)) = some true) := by
  decide +kernel

/-- `READY = 0`; and a word for each row of the `if` chain, at the ends of the rows. -/
theorem witness_EvWordDecodesByItsBits :
    ready (st pkA 0 false) = false ∧
    [0x000#11, 0x0FF#11, 0x100#11, 0x1FF#11, 0x200#11, 0x2FF#11, 0x300#11, 0x3FF#11, 0x400#11, 0x7FF#11].map decodeEv =
      [.noEvent, .noEvent, .push 0x00#8, .push 0xFF#8, .tick, .tick, .push 0x00#8, .push 0xFF#8, .reset, .reset] := by
  decide

/-- The four rows of `SEL`, at `LEN` 7 and 8. -/
theorem witness_SelWordSelectsOneStep :
    decodeSel (selWord (st pkA 0 true)) = .accept ∧ decodeSel (selWord (st bad 0 true)) = .drop ∧
    decodeSel (selWord (st (pkA.take 7) 0 true)) = .report ∧ decodeSel (selWord (st (pkA.take 7) 0 false)) = .wait := by
  decide +kernel

theorem witness_DecodeOfEncodeIsTheInstruction :
    (Instr.packet (-8388608) 8388607).wellFormed = true ∧ (Instr.sample 8388607 (-8388608)).wellFormed = true := by decide

theorem witness_DecodedIsWellFormedAndReencodes :
    decode (.call .crcXorb) [0x01#8] = .ok (.crcXorb 0x01#8) ∧ decode .select [0b111#8] = .ok .accept := by decide

/-- The three hypotheses of `SHIFT`, `XORB` and `CHECK`: both values of the low bit, a zero byte, a full window. -/
theorem witness_CrcOperations :
    (0x0001#16 : Acc).getLsbD 0 = true ∧ (0x0002#16 : Acc).getLsbD 0 = false ∧
    (st (pkA ++ [0xFF#8]) 0 false).buf =
      [0x00#8, 0x00#8, 0x64#8, 0x00#8, 0x00#8, 0x0A#8, 0x9F#8, 0x2C#8] ++ [0xFF#8] := by decide

theorem witness_CrcIsLinearAndInvertible : pkA.length = pkB.length := by decide

theorem witness_CrcFieldIsUnique :
    (pkA.take 6).length = 6 ∧ crc16 (pkA.take 6 ++ [0x9F#8, 0x2C#8]) = 0x0000#16 := by decide +kernel

/-- A valid window with a byte to change, in the data and in the CRC field. -/
theorem witness_OneByteErrorsAreDetected :
    (([0x00#8, 0x00#8] : List Byte) ++ 0x64#8 :: [0x00#8, 0x00#8, 0x0A#8, 0x9F#8, 0x2C#8]).length = 8 ∧
    (0x64#8 : Byte) ≠ 0x65#8 ∧
    validWindow ([0x00#8, 0x00#8] ++ 0x64#8 :: [0x00#8, 0x00#8, 0x0A#8, 0x9F#8, 0x2C#8]) = true ∧
    ((0x9F#8, 0x2C#8) : Byte × Byte) ≠ (0x9F#8, 0x2D#8) ∧
    validWindow (pkA.take 6 ++ [0x9F#8, 0x2C#8]) = true := by decide +kernel

/-- `READY` at both sides of `BUF_CAP = 8`, with and without a bound. -/
theorem witness_PushAppendsOneByte :
    ready (st (pkA.take 7) 0 false) = true ∧ (st (pkA.take 7) 0 false).cfg.bufCap = some 8 ∧
    ready (st pkA 0 false) = false ∧ (wide pkA 0 false).cfg.bufCap = none ∧
    part (fun t => decide (8 ≤ t.buf.length)) (exec (.push 0x2C#8) (st (pkA.take 7) 0 false)) = some true := by decide

theorem witness_AcceptEmitsCountsAndRemovesEight :
    (st pkA 0 false).cfg.wf = true ∧
    (st pkA 0 false).buf = [0x00#8, 0x00#8, 0x64#8, 0x00#8, 0x00#8, 0x0A#8, 0x9F#8, 0x2C#8] ∧
    crc16 [0x00#8, 0x00#8, 0x64#8, 0x00#8, 0x00#8, 0x0A#8, 0x9F#8, 0x2C#8] = 0x0000#16 := by decide +kernel

theorem witness_DropRemovesExactlyOneByte :
    (st bad 0 false).buf = [0x12#8, 0x34#8, 0x56#8, 0x00#8, 0x30#8, 0x39#8, 0x00#8, 0x3A#8] ∧
    crc16 [0x12#8, 0x34#8, 0x56#8, 0x00#8, 0x30#8, 0x39#8, 0x00#8, 0x3A#8] ≠ 0x0000#16 := by decide +kernel

theorem witness_InternalStepsRefuseWhereNotEnabled :
    enabled .accept (st bad 0 false) = false ∧ enabled .accept (st (pkA.take 7) 0 false) = false ∧
    enabled .drop (st pkA 0 false) = false ∧ enabled .drop (st (bad.take 7) 0 false) = false ∧
    enabled .report (st pkA 0 true) = false ∧ enabled .report (st [] 0 false) = false := by decide +kernel

theorem witness_quiescent_of_WaitAndStep :
    quiescent (st (pkA.take 7) 0 false) = true ∧ quiescent (st (pkA.take 7) 0 true) = false ∧
    quiescent (st pkA 0 false) = false := by decide +kernel

theorem witness_WaitChangesNothing :
    (st (pkA.take 7) 1 false).buf.length < 8 ∧ (st (pkA.take 7) 1 false).tpend = false := by decide

theorem witness_PartialPacketIsLeftAlone :
    (st (pkA.take 7) 0 false).buf.length < 8 ∧ (∀ b, Instr.push b ∉ [Instr.tick, .report]) ∧
    Instr.reset ∉ [Instr.tick, .report] ∧ ∃ t, runLabels [.tick, .report] (st (pkA.take 7) 0 false) = some t :=
  ⟨by decide, by simp, by simp, _, rfl⟩

/-- A run with a `TICK` among the framer steps, a `REPORT` after them, and no `RESET`; and one with a `RESET`. -/
theorem witness_FramerStepsAreBounded :
    8 ≤ (st pkA 0 false).buf.length ∧ (∀ b, Instr.push b ∉ [Instr.tick, .accept, .report]) ∧
    Instr.reset ∉ [Instr.tick, .accept, .report] ∧
    (∃ t, runLabels [.tick, .accept, .report] (st pkA 0 false) = some t ∧ decide (t.buf.length ≤ 7) = true) ∧
    (∀ b, Instr.push b ∉ [Instr.accept, .reset]) ∧
    ∃ t, runLabels [.accept, .reset] (st pkA 0 false) = some t ∧ decide (t.buf.length ≤ 7) = true :=
  ⟨by decide, by simp, by decide, exists_of_run (by decide +kernel), by simp, exists_of_run (by decide +kernel)⟩

theorem witness_DrainAndAppend : (wide (pkA ++ bad) 0 false).cfg.wf = true ∧ (wide [] 0 false).cfg.bufCap = none := by decide

theorem witness_PushCommutesWithFramerSteps :
    8 ≤ (wide pkA 0 false).buf.length ∧ ready (wide pkA 0 false) = true ∧ enabled .accept (wide pkA 0 false) = true ∧
    8 ≤ (wide bad 0 false).buf.length ∧ ready (wide bad 0 false) = true ∧ enabled .drop (wide bad 0 false) = true := by
  decide +kernel

theorem witness_TickCommutesButNotWithReport :
    enabled .accept (st pkA 0 false) = true ∧ enabled .drop (st bad 0 false) = true ∧
    enabled (.push 0#8) (st [] 0 false) = true ∧ enabled .report (st (pkA.take 7) 0 true) = true := by decide +kernel

/-- One garbage byte, packet A, one more byte: pushed with a step as soon as one is enabled. -/
def resyncRun : List Instr :=
  (0x12#8 :: pkA.take 7).map .push ++ [.drop, .push 0x2C#8, .accept, .push 0xAA#8]

/-- A run that ends drained, with the point at which the first `k + 1` framer steps are done; and one that ends with 8
bytes held. -/
theorem witness_ResyncDropsExactlyTheGarbage :
    State.reset.cfg.wf = true ∧ State.reset.buf = [] ∧ Instr.reset ∉ resyncRun ∧
    (∃ t, runLabels resyncRun State.reset = some t ∧ decide (t.buf.length < 8) = true) ∧
    pushed resyncRun = [0x12#8] ++ pkA ++ [0xAA#8] ∧ validWindow pkA = true ∧
    (resyncRun = resyncRun.take 11 ++ resyncRun.drop 11 ∧
      (∃ u, runLabels (resyncRun.take 11) State.reset = some u ∧ decide (u.buf = []) = true) ∧
      ((resyncRun.take 11).filter isFramer).length = [0x12#8].length + 1) ∧
    (∀ i, i < [0x12#8].length → validWindow ((([0x12#8] ++ pkA).drop i).take 8) = false) ∧
    (Instr.reset ∉ resyncRun.take 10 ∧ pushed (resyncRun.take 10) = [0x12#8] ++ pkA ++ [] ∧
      ∃ t, runLabels (resyncRun.take 10) State.reset = some t ∧ decide (t.buf.length = 8) = true) := by
  refine ⟨by decide, rfl, by decide, exists_of_run (by decide +kernel), by decide, by decide +kernel,
    ⟨by decide, exists_of_run (by decide +kernel), by decide⟩, ?_, by decide, by decide,
    exists_of_run (by decide +kernel)⟩
  intro i hi
  obtain rfl : i = 0 := by simpa using hi
  decide +kernel

/-- R98, R99: two equal garbage bytes are dropped at two positions; one between two packets at position 8. -/
theorem test_frame_positions :
    (frame ([0x12#8, 0x12#8] ++ pkA)).dropped = [⟨0, 0x12#8⟩, ⟨1, 0x12#8⟩] ∧
    (frame (pkA ++ [0x12#8] ++ pkA)).dropped = [⟨8, 0x12#8⟩] := by decide +kernel

/-- R98, R99: the run's one `DROP` is of position 0. -/
theorem test_resync_run_drops : droppedIn 0 resyncRun State.reset = [⟨0, 0x12#8⟩] := by decide +kernel

theorem witness_SamplesDoNotDependOnTheSchedule :
    State.reset.cfg.wf = true ∧ State.reset.buf = [] ∧ Instr.reset ∉ resyncRun ∧
    (∃ t, runLabels resyncRun State.reset = some t ∧ decide (t.buf.length < 8) = true) ∧
    ∃ d, d ∈ (frame (pkA ++ [0x12#8] ++ pkA)).dropped :=
  ⟨by decide, rfl, by decide, exists_of_run (by decide +kernel), ⟨8, 0x12#8⟩, by
    rw [test_frame_positions.2]; exact List.mem_singleton.2 rfl⟩

/-- Packets A and B pushed whole, then two framer steps. -/
def backToBackRun : List Instr := (pkA ++ pkB).map .push ++ [.accept, .accept]

theorem witness_BackToBackPacketsAreAllAccepted :
    (wide [] 0 false).cfg.wf = true ∧ (wide [] 0 false).buf = [] ∧
    Instr.reset ∉ backToBackRun ∧
    (∃ t, runLabels backToBackRun (wide [] 0 false) = some t ∧ decide (t.buf.length < 8) = true) ∧
    pushed backToBackRun = [pkA, pkB].flatten ∧
    (∀ w ∈ [pkA, pkB], validWindow w = true) := by
  refine ⟨by decide, rfl, by decide, exists_of_run (by decide +kernel), by decide, by decide +kernel⟩

theorem witness_SealedDataIsAccepted :
    State.reset.cfg.wf = true ∧
    (st pkA 0 false).buf = [0x00#8, 0x00#8, 0x64#8, 0x00#8, 0x00#8, 0x0A#8,
      (crc16 [0x00#8, 0x00#8, 0x64#8, 0x00#8, 0x00#8, 0x0A#8]).extractLsb' 0 8,
      (crc16 [0x00#8, 0x00#8, 0x64#8, 0x00#8, 0x00#8, 0x0A#8]).extractLsb' 8 8] := by decide +kernel

/-- Eight idle bytes and a drop. -/
def idleRun (b : Byte) : List Instr := (List.replicate 8 b).map .push ++ [.drop]

/-- For zeros and for ones. -/
theorem witness_IdleLinesYieldNoSample :
    State.reset.cfg.wf = true ∧ State.reset.buf = [] ∧
    (Instr.reset ∉ idleRun 0x00#8 ∧ pushed (idleRun 0x00#8) = List.replicate 8 0x00#8 ∧
      ∃ t, runLabels (idleRun 0x00#8) State.reset = some t ∧ decide (t.buf.length = 7) = true) ∧
    Instr.reset ∉ idleRun 0xFF#8 ∧ pushed (idleRun 0xFF#8) = List.replicate 8 0xFF#8 ∧
      ∃ t, runLabels (idleRun 0xFF#8) State.reset = some t ∧ decide (t.buf.length = 7) = true :=
  ⟨by decide, rfl, ⟨by decide, by decide, exists_of_run (by decide +kernel)⟩, by decide, by decide,
    exists_of_run (by decide +kernel)⟩

/-- `OUT_W` at its least value and at its default. -/
theorem witness_DecodedIntegersAreSigned24 :
    (wide [] 0 false).cfg.wf = true ∧ (wide [] 0 false).cfg.outW = 24 ∧ State.reset.cfg.wf = true ∧
    State.reset.cfg.outW = 32 := by decide

theorem witness_SignExtensionKeepsTheValue : 24 ≤ 24 ∧ 24 ≤ 31 ∧ 31 < 32 := by decide

/-- Two windows with the same data bytes and different CRC bytes (V-D3). -/
theorem witness_SampleDeterminesTheDataBytes :
    ∀ i, i < 6 → pktByte 0x00006400000A9F2C#64 i = pktByte 0x00006400000A2C9F#64 i := by decide

theorem witness_PacketBuildsAValidWindow :
    (-8388608 : Int) ≤ -8388608 ∧ (-8388608 : Int) ≤ 8388607 ∧ (8388607 : Int) ≤ 8388607 := by decide

/-- An unbounded counter; a 2-bit one below and at its greatest value. -/
theorem witness_CntIncSaturates :
    (wide [] 0 false).cfg.cntW = none ∧ State.reset.cfg.cntW = some 32 ∧ (st [] 2 false).cnt < 2 ^ 2 - 1 ∧
    (st [] 3 false).cnt = 2 ^ 2 - 1 ∧
    ({ st [] 3 false with cfg := { bufCap := some 8, cntW := some 2, outW := 32 } } : State).cfg.cntW = some 2 := by decide

theorem witness_TickLatchesAndMerges : (st [] 0 true).tpend = true := rfl

theorem witness_ReportEmitsAndClears :
    (st (pkA.take 7) 2 true).tpend = true ∧ (st (pkA.take 7) 2 true).buf.length < 8 := by decide

theorem witness_ReportWaitsForTheDrain :
    8 ≤ (st pkA 0 true).buf.length ∧ (st pkA 0 true).tpend = true := by decide

/-- One packet in the first reporting window, a lone byte in the second. -/
def firstWindow : List Instr := pkA.map .push ++ [.accept]
def secondWindow : List Instr := [.push 0x00#8]
def reportRun : List Instr := firstWindow ++ [.tick, .report] ++ secondWindow ++ [.tick, .report]

theorem witness_ReportsCountThePacketsSinceTheLast :
    State.reset.cnt = 0 ∧ State.reset.out = [] ∧ atMost State.reset.cnt State.reset.cfg.cntMax = true ∧
    (Instr.reset ∉ firstWindow ∧ Instr.report ∉ firstWindow) ∧
    (Instr.reset ∉ secondWindow ∧ Instr.report ∉ secondWindow ∧ Instr.accept ∉ secondWindow) ∧
    (∀ w, State.reset.cfg.cntW = some w → accepts firstWindow < 2 ^ w) ∧
    ∃ t, runLabels reportRun State.reset = some t ∧
      decide (t.out = [.sample 100 10, .report 1, .report 0]) = true := by
  refine ⟨rfl, rfl, by decide, by decide, by decide, ?_, exists_of_run (by decide +kernel)⟩
  intro w hw
  obtain rfl : w = 32 := by simpa [State.reset, Config.Params.default] using hw.symm
  decide

/-- A 1-bit counter and two packets with a report between them: more `ACCEPT` steps than the counter can show, and no
interval that saturates. -/
def twoIntervals : List Instr := [.accept, .tick, .report] ++ pkB.map .push ++ [.accept]
def oneBit : State := { st pkA 0 false with cfg := { bufCap := some 8, cntW := some 1, outW := 32 } }

theorem witness_ReportedSumIsTheNumberOfAccepts :
    Instr.reset ∉ twoIntervals ∧
    (∀ l1, l1 <+: twoIntervals → atMost (acceptsSince oneBit.cnt l1) oneBit.cfg.cntMax = true) ∧
    atMost (oneBit.cnt + accepts twoIntervals) oneBit.cfg.cntMax = false ∧
    ∃ t, runLabels twoIntervals oneBit = some t ∧
      decide (t.cnt = 1 ∧ t.out = [.sample 100 10, .report 1, .sample (-100) (-1)]) = true := by
  refine ⟨by decide, ?_, by decide, exists_of_run (by decide +kernel)⟩
  have h : ∀ l1 ∈ twoIntervals.inits, atMost (acceptsSince oneBit.cnt l1) oneBit.cfg.cntMax = true := by decide
  exact fun l1 hl => h l1 ((List.mem_inits _ _).2 hl)

/-- A run with a `RESET` and one without. -/
theorem witness_CounterAndSamplesCountAccepts :
    atMost (st pkA 5 false).cnt (st pkA 5 false).cfg.cntMax = true ∧
    (∃ t, runLabels [.reset] (st pkA 5 false) = some t ∧ decide (t.cnt = 0) = true) ∧
    Instr.reset ∉ [Instr.accept] ∧
    ∃ t, runLabels [.accept] (st pkA 5 false) = some t ∧ decide (t.cnt = 6) = true :=
  ⟨by decide, exists_of_run (by decide +kernel), by decide, exists_of_run (by decide +kernel)⟩

theorem witness_BufferIsAPieceOfTheStream :
    State.reset.buf = [] ∧ Instr.reset ∉ resyncRun ∧
    ∃ t, runLabels resyncRun State.reset = some t ∧ decide (t.buf = [0xAA#8]) = true :=
  ⟨rfl, by decide, exists_of_run (by decide +kernel)⟩

/-- A state with the invariant, at the bound of the buffer, whose step changes it. -/
theorem witness_StepKeepsInv :
    Inv (st pkA 4294967295 true) ∧ ∃ t, step (st pkA 4294967295 true) = .next t ∧
      decide (t.cnt = 4294967295 ∧ t.buf = [] ∧ t.out = [.sample 100 10]) = true :=
  ⟨by decide, exists_of_part (by decide +kernel)⟩

theorem witness_EveryStepHasANextState :
    enabled .accept (st pkA 0 false) = true ∧ enabled .drop (st bad 0 false) = true ∧
    enabled .report (st [] 0 true) = true := by decide +kernel

/-- The block's turn, the host's turn with nothing offered, with a byte taken, with a byte that waits beside a `TICK`,
with a byte that waits alone; and the same with the schedule run out. -/
theorem witness_StepRunsTheDecodedInstruction :
    ({ State.reset with sched := [.block] } : State).sched = .block :: [] ∧
    ({ State.reset with sched := [.host] } : State).offers = [] ∧
    (decode .port (evBytes 0x19F#11) = .ok (.push 0x9F#8) ∧ ready State.reset = true) ∧
    ((0x300#11 : EvWord).getLsbD 10 = false ∧ (0x300#11 : EvWord).getLsbD 8 = true ∧
      (0x300#11 : EvWord).getLsbD 9 = true ∧ ready (st pkA 0 false) = false) ∧
    ((0x100#11 : EvWord).getLsbD 10 = false ∧ (0x100#11 : EvWord).getLsbD 8 = true ∧
      (0x100#11 : EvWord).getLsbD 9 = false) ∧
    (State.reset.sched = [] ∧ quiescent State.reset = true ∧ quiescent (st [] 0 true) = false) := by decide +kernel

theorem witness_StepsAreTheSixTransitions :
    (∃ t, step (st [] 2 true) = .next t ∧ decide (t.out = [.report 2]) = true) ∧
    enabled .accept (st pkA 0 false) = true ∧ enabled (.push 0#8) State.reset = true :=
  ⟨exists_of_part (by decide), by decide +kernel, by decide⟩

/-- Both clauses of a cycle: with and without `rst`, and with a `tick`. -/
theorem witness_CycleIsARunOfTransitions :
    (0x400#11 : EvWord).getLsbD 10 = true ∧ (0x300#11 : EvWord).getLsbD 10 = false ∧
    (0x300#11 : EvWord).getLsbD 9 = true := by decide

/-- The greatest count; a cycle with and one without `rst`; a step that is `RESET` and one that is not. -/
theorem witness_SignalsCarryTheEmission :
    (st pkA 4294967295 true).cfg.wf = true ∧
    atMost (st pkA 4294967295 true).cnt (st pkA 4294967295 true).cfg.cntMax = true ∧
    ((0x400#11 : EvWord).getLsbD 10 = true ∧ ∃ t, cycle 0x400#11 (st pkA 4294967295 true) = .next t) ∧
    ((0x300#11 : EvWord).getLsbD 10 = false ∧
      ∃ t, cycle 0x300#11 (st pkA 4294967295 true) = .next t ∧ decide (t.out = [.sample 100 10]) = true) ∧
    (fetch { st pkA 0 true with sched := [.host], offers := [0x400#11] }).instr = .reset ∧
    (fetch (st pkA 4294967295 true)).instr = .accept ∧
    (st pkA 4294967295 true).cfg.cntW = some 32 :=
  ⟨by decide, by decide, ⟨by decide, _, rfl⟩, ⟨by decide, exists_of_part (by decide +kernel)⟩, by decide,
    by decide +kernel, rfl⟩

/-- A run of one transition, after which nothing happens. -/
def oneLabel (i : Instr) : Nat → Option Instr
  | 0 => some i
  | _ + 1 => none
def oneState (s t : State) : Nat → State
  | 0 => s
  | _ + 1 => t

/-- Where it ends quiescent it is fair. -/
theorem oneRun_fair (i : Instr) (s t : State) (he : enabled i s = true) (hx : exec i s = .next t)
    (h8 : have8 t = false) (hp : t.tpend = false) :
    isRun (oneLabel i) (oneState s t) ∧ weaklyFair (oneLabel i) (oneState s t) := by
  constructor
  · intro n
    cases n with
    | zero => exact ⟨he, hx⟩
    | succ n => rfl
  · intro j hj n hen
    have h := hen (n + 1) (Nat.le_succ n)
    simp only [List.mem_cons, List.not_mem_nil, or_false] at hj
    rcases hj with rfl | rfl | rfl <;> simp [oneState, enabled, h8, hp] at h

/-- A fair run from a window, and one from a pending report with fewer than 8 bytes held throughout. -/
theorem witness_FairRunsTestEveryWindowAndReport :
    (∃ label st', isRun label st' ∧ weaklyFair label st' ∧ 8 ≤ (st' 0).buf.length) ∧
    (∃ label st', isRun label st' ∧ weaklyFair label st' ∧ (st' 0).tpend = true ∧
      ∀ m, 0 ≤ m → (st' m).buf.length < 8) := by
  constructor
  · obtain ⟨t, hx, hp⟩ := exists_of_part (r := exec .accept (st pkA 0 false))
      (p := fun t => !have8 t && !t.tpend) (by decide +kernel)
    simp only [Bool.and_eq_true, Bool.not_eq_true'] at hp
    obtain ⟨h1, h2⟩ := oneRun_fair .accept (st pkA 0 false) t (by decide +kernel) hx hp.1 hp.2
    exact ⟨_, _, h1, h2, (by decide : 8 ≤ pkA.length)⟩
  · obtain ⟨h1, h2⟩ := oneRun_fair .report (st [] 0 true) { st [] 0 false with out := [.report 0] } (by decide) rfl
      (by decide) rfl
    refine ⟨_, _, h1, h2, rfl, ?_⟩
    intro m _
    cases m <;> exact (by decide : ([] : List Byte).length < 8)

end Sys2Proof.Tests
end

section
/-! PROOFS. The `EV` word by its bits (R56): which event it holds first, what of it is still to come, and the words
of the single events. -/

namespace Sys2Proof

/-- A mask and a match, read bit by bit. -/
theorem evWord_and_eq_iff (w m v : EvWord) :
    w &&& m = v ↔ ∀ i : Fin 11, (w.getLsbD i && m.getLsbD i) = v.getLsbD i := by
  simp only [← BitVec.getLsbD_and]
  exact ⟨fun h i => by rw [h], fun h => BitVec.eq_of_getLsbD_eq fun i hi => h ⟨i, hi⟩⟩

theorem evWord_matches_reset_iff (w : EvWord) : w &&& 0x400#11 = 0x400#11 ↔ Ev.rst w = true := by
  simp [evWord_and_eq_iff, Fin.forall_fin_succ, Ev.rst]

theorem evWord_matches_push_iff (w : EvWord) :
    w &&& 0x500#11 = 0x100#11 ↔ Ev.inValid w = true ∧ Ev.rst w = false := by
  simp [evWord_and_eq_iff, Fin.forall_fin_succ, Ev.inValid, Ev.rst]

theorem evWord_matches_tick_iff (w : EvWord) :
    w &&& 0x600#11 = 0x200#11 ↔ Ev.tick w = true ∧ Ev.rst w = false := by
  simp [evWord_and_eq_iff, Fin.forall_fin_succ, Ev.tick, Ev.rst]

theorem evWord_matches_push_tick_iff (w : EvWord) :
    w &&& 0x700#11 = 0x300#11 ↔ Ev.inValid w = true ∧ Ev.tick w = true ∧ Ev.rst w = false := by
  simp [evWord_and_eq_iff, Fin.forall_fin_succ, Ev.inValid, Ev.tick, Ev.rst]

/-- The masks of R56 test `rst` before `in_valid` before `tick`. -/
theorem decodeEv_eq (w : EvWord) :
    decodeEv w =
      if Ev.rst w then .reset
      else if Ev.inValid w then .push (Ev.inData w)
      else if Ev.tick w then .tick
      else .noEvent := by
  simp only [decodeEv, evWord_matches_reset_iff, evWord_matches_push_iff, evWord_matches_tick_iff]
  by_cases hr : Ev.rst w = true <;> simp [hr]

/-- Of a word without `tick` nothing is to come after its first event. -/
theorem evRest_of_not_tick (w : EvWord) (h : Ev.tick w = false) : evRest w = [] := by
  simp [evRest, evWord_matches_push_tick_iff, h]

/-- The two bytes of an `EV` word are read back as that word (log entry 5). -/
theorem decode_port_evBytes (w : EvWord) : decode .port (evBytes w) = .ok (decodeEv w) := by
  have hhi : ((w.extractLsb' 8 3).setWidth 8).toNat < 8 := by
    have hlt : (w.extractLsb' 8 3).toNat < 8 := (w.extractLsb' 8 3).isLt
    rw [BitVec.toNat_setWidth]
    omega
  have hw : ((w.extractLsb' 8 3).setWidth 8 ++ w.extractLsb' 0 8 : BitVec 16).setWidth 11 = w := by
    apply BitVec.eq_of_getLsbD_eq
    intro i hi
    rw [BitVec.getLsbD_setWidth, BitVec.getLsbD_append]
    by_cases h8 : i < 8
    · simp [h8, hi]
    · have hsum : 8 + (i - 8) = i := by omega
      have hhigh : i - 8 < 3 := by omega
      have hbyte : i - 8 < 8 := by omega
      simp [h8, hi, hsum, hhigh, hbyte]
  simp only [decode, evBytes, decodePort, hhi, hw, if_true]

@[simp] theorem Ev.rst_pushWord (b : Byte) : Ev.rst (Ev.pushWord b) = false := by simp [Ev.rst, Ev.pushWord]

@[simp] theorem Ev.inValid_pushWord (b : Byte) : Ev.inValid (Ev.pushWord b) = true := by
  simp [Ev.inValid, Ev.pushWord]

@[simp] theorem Ev.tick_pushWord (b : Byte) : Ev.tick (Ev.pushWord b) = false := by simp [Ev.tick, Ev.pushWord]

@[simp] theorem Ev.inData_pushWord (b : Byte) : Ev.inData (Ev.pushWord b) = b := by
  apply BitVec.eq_of_getLsbD_eq
  intro i hi
  simp only [Ev.inData, Ev.pushWord, BitVec.getLsbD_extractLsb', BitVec.getLsbD_or, BitVec.getLsbD_setWidth, hi]
  interval_cases i <;> simp

@[simp] theorem decodeEv_pushWord (b : Byte) : decodeEv (Ev.pushWord b) = .push b := by simp [decodeEv_eq]

@[simp] theorem evRest_pushWord (b : Byte) : evRest (Ev.pushWord b) = [] := evRest_of_not_tick _ (by simp)

end Sys2Proof
end

section
/-! PROOFS. The inputs of a run (`offers`, `sched`) decide which operation runs, and no transition reads or writes
them; what each turn fetches. -/

namespace Sys2Proof.Machine

/-- The same block with other inputs of the run. -/
def State.withInputs (s : State) (o : List EvWord) (r : List Agent) : State := { s with offers := o, sched := r }

theorem enabled_withInputs (i : Instr) (s : State) (o : List EvWord) (r : List Agent) :
    enabled i (s.withInputs o r) = enabled i s := by
  cases i <;> rfl

/-- An enabled transition does the same whatever the inputs of the run are, and leaves them alone. -/
theorem exec_withInputs_of_enabled {i : Instr} {s t : State} (o : List EvWord) (r : List Agent)
    (he : enabled i s = true) (hx : exec i s = .next t) :
    exec i (s.withInputs o r) = .next (t.withInputs o r) := by
  rcases exec_enabled_cases i s t he hx with
    ⟨rfl, rfl⟩ | ⟨b, rfl, hr, rfl⟩ | ⟨rfl, rfl⟩ | ⟨rfl, w, hw, hv, rfl⟩ | ⟨rfl, w, hw, hv, rfl⟩ | ⟨rfl, hp, hl, rfl⟩
  · rfl
  · exact congrArg Host.Outcome.next (if_pos hr)
  · rfl
  · exact (execAccept_eq_next_iff _ _).2 ⟨w, hw, hv, rfl⟩
  · exact (execDrop_eq_next_iff _ _).2 ⟨w, hw, hv, rfl⟩
  · exact (execReport_eq_next_iff _ _).2 ⟨hp, hl, rfl⟩

/-- The other direction: what a transition does with the inputs it was given, it does with the state's own. -/
theorem exec_of_exec_withInputs {i : Instr} {s t : State} {o : List EvWord} {r : List Agent}
    (he : enabled i s = true) (hx : exec i (s.withInputs o r) = .next t) :
    exec i s = .next (t.withInputs s.offers s.sched) := by
  have he' : enabled i (s.withInputs o r) = true := (enabled_withInputs i s o r).trans he
  exact exec_withInputs_of_enabled (s := s.withInputs o r) s.offers s.sched he' hx

/-- A transition is enabled either for the host, or because `SEL` selects it (R57, R58). -/
theorem enabled_cases (i : Instr) (s : State) (he : enabled i s = true) :
    i = .reset ∨ (∃ b, i = .push b ∧ ready s = true) ∨ i = .tick ∨ i = selected s := by
  rw [selected_eq]
  cases i <;> simp_all [enabled]

/-- Every enabled transition has a next state (R125). -/
theorem exec_of_enabled (i : Instr) (s : State) (he : enabled i s = true) : ∃ t, exec i s = .next t := by
  rcases enabled_cases i s he with rfl | ⟨b, rfl, -⟩ | rfl | rfl
  · exact ⟨_, rfl⟩
  · exact ⟨_, rfl⟩
  · exact ⟨_, rfl⟩
  · exact exec_selected s

/-- What a fetch can give is an enabled transition, or changes nothing: `WAIT`, the empty word, a byte that is not
taken. -/
theorem enabled_or_idle_of_fetched {i : Instr} {s : State}
    (h : i = selected s ∨ i = .reset ∨ (∃ b, i = .push b) ∨ i = .tick ∨ i = .noEvent) :
    enabled i s = true ∨ exec i s = .next s := by
  rcases h with rfl | rfl | ⟨b, rfl⟩ | rfl | rfl
  · rcases selected_wait_or_enabled s with hw | he
    · obtain ⟨t, ht⟩ := exec_selected s
      obtain ⟨-, rfl⟩ := (execWait_eq_next_iff s t).1 (by rwa [hw] at ht)
      exact .inr ht
    · exact .inl he
  · exact .inl rfl
  · by_cases hr : ready s = true
    · exact .inl hr
    · exact .inr (congrArg Host.Outcome.next (if_neg hr))
  · exact .inl rfl
  · exact .inr rfl

/-- What a step can be (R57): nothing but the inputs changes, or an enabled transition is taken. -/
theorem step_cases {s t : State} (h : step s = .next t) :
    t = s.withInputs t.offers t.sched ∨
    ∃ i u, enabled i s = true ∧ exec i s = .next u ∧ t = u.withInputs t.offers t.sched := by
  obtain ⟨hi, o, r, hu⟩ := fetch_cases s
  rw [step] at h
  rw [hu] at hi h
  rcases enabled_or_idle_of_fetched hi with he | hidle
  · have he' : enabled (fetch s).instr s = true := (enabled_withInputs _ s o r).symm.trans he
    exact .inr ⟨_, _, he', exec_of_exec_withInputs he' h, rfl⟩
  · cases hidle.symm.trans h
    exact .inl rfl

theorem step_of_fetch {s u : State} {i : Instr} (h : fetch s = { instr := i, state := u }) : step s = exec i u := by
  rw [step, h]

/-- The schedule gives the block the turn. -/
theorem fetch_of_block {s : State} {r : List Agent} (hs : s.sched = .block :: r) :
    fetch s = blockTurn { s with sched := r } := by
  simp [fetch, hs]

/-- The schedule gives the host the turn. -/
theorem fetch_of_host {s : State} {r : List Agent} (hs : s.sched = .host :: r) :
    fetch s = hostTurn { s with sched := r } := by
  simp [fetch, hs]

/-- With the schedule run out the block goes first while it has a step (R64). -/
theorem fetch_of_busy {s : State} (hs : s.sched = []) (hq : quiescent s = false) : fetch s = blockTurn s := by
  rcases ho : s.offers with _ | ⟨w, ws⟩ <;> simp [fetch, hs, ho, hq]

/-- With the schedule run out and the block quiescent, the host offers its next word (R64). -/
theorem fetch_of_quiescent {s : State} {w : EvWord} {ws : List EvWord} (hs : s.sched = [])
    (hq : quiescent s = true) (ho : s.offers = w :: ws) : fetch s = hostTurn { s with sched := [] } := by
  simp only [fetch, hs, ho, hq, if_true]
  rw [← hs, ← ho]

/-- With no input left and the block quiescent, the step is `WAIT` (R87, R165). -/
theorem step_of_nothing {s : State} (hs : s.sched = []) (ho : s.offers = []) (hq : quiescent s = true) :
    step s = .next s := by
  have hf : fetch s = blockTurn s := by simp [fetch, hs, ho]
  have hsel : selected s = .wait := of_decide_eq_true hq
  rw [step_of_fetch hf, hsel]
  exact (execWait_eq_next_iff s s).2 ⟨hq, rfl⟩

/-- A byte waits when it is offered without `RESET` while `READY = 0`. -/
theorem pushWaits_eq_true_iff (w : EvWord) (s : State) :
    pushWaits w s = true ↔ Ev.rst w = false ∧ Ev.inValid w = true ∧ ready s = false := by
  simp [pushWaits, and_assoc]

/-- The host's turn with nothing offered: the empty word (R56). -/
theorem hostTurn_of_nothing {s : State} (ho : s.offers = []) : hostTurn s = { instr := .noEvent, state := s } := by
  simp [hostTurn, ho]

/-- The host's turn, its word not waiting: the word's first event, the rest of the word still to come. -/
theorem hostTurn_of_taken {w : EvWord} {ws : List EvWord} {s : State} (ho : s.offers = w :: ws)
    (hw : pushWaits w s = false) :
    hostTurn s = { instr := decodeEv w, state := { s with offers := evRest w ++ ws } } := by
  simp [hostTurn, ho, hw]

/-- The host's turn, its byte waiting beside a `TICK`: the `TICK`, the byte still offered. -/
theorem hostTurn_of_waits_tick {w : EvWord} {ws : List EvWord} {s : State} (ho : s.offers = w :: ws)
    (hw : pushWaits w s = true) (ht : Ev.tick w = true) :
    hostTurn s = { instr := .tick, state := { s with offers := Ev.withoutTick w :: ws } } := by
  simp [hostTurn, ho, hw, ht]

/-- The host's turn, its byte waiting alone: the block's step. -/
theorem hostTurn_of_waits_alone {w : EvWord} {ws : List EvWord} {s : State} (ho : s.offers = w :: ws)
    (hw : pushWaits w s = true) (ht : Ev.tick w = false) : hostTurn s = blockTurn s := by
  simp [hostTurn, ho, hw, ht]

/-- A step of the host that offers one word runs the event of that word. -/
theorem step_host_word (s : State) (w : EvWord) (hw : pushWaits w s = false) (hr : evRest w = []) :
    step (s.withInputs [w] [.host]) = exec (decodeEv w) (s.withInputs [] []) := by
  have hf : fetch (s.withInputs [w] [.host]) = { instr := decodeEv w, state := s.withInputs (evRest w ++ []) [] } :=
    hostTurn_of_taken (s := s.withInputs [w] []) rfl hw
  rw [step, hf, hr, List.append_nil]

/-- Every enabled transition is what some inputs of the run make the next step execute. -/
theorem exists_inputs_of_enabled (i : Instr) (s : State) (he : enabled i s = true) :
    ∃ o r, step (s.withInputs o r) = exec i (s.withInputs [] []) := by
  rcases enabled_cases i s he with rfl | ⟨b, rfl, hr⟩ | rfl | rfl
  · exact ⟨_, _, step_host_word s Ev.resetWord rfl rfl⟩
  · have h := step_host_word s (Ev.pushWord b) (by simp [pushWaits, hr]) (by simp)
    exact ⟨_, _, by rwa [decodeEv_pushWord] at h⟩
  · exact ⟨_, _, step_host_word s Ev.tickWord rfl rfl⟩
  · exact ⟨[], [.block], rfl⟩

end Sys2Proof.Machine
end

section
/-! PROOFS. Every enabled transition keeps the invariant (R30): the bound of the buffer, the saturating counter, and
the range of what is emitted. -/

namespace Sys2Proof.Machine

theorem outW_ge_of_wf {p : Config.Params} (h : p.wf = true) : 24 ≤ p.outW := by
  simp only [Config.Params.wf, Bool.and_eq_true, decide_eq_true_iff] at h
  exact h.2

theorem atMost_zero (m : Option Nat) : atMost 0 m = true := by cases m <;> simp [atMost]

theorem atMost_of_le {k n : Nat} {m : Option Nat} (hk : k ≤ n) (hn : atMost n m = true) : atMost k m = true := by
  cases m with
  | none => rfl
  | some m => exact decide_eq_true (hk.trans (of_decide_eq_true hn))

/-- `READY` leaves room for one byte more (R22). -/
theorem atMost_succ_of_hasRoom {n : Nat} {cap : Option Nat} (h : hasRoom cap n = true) :
    atMost (n + 1) cap = true := by
  cases cap with
  | none => rfl
  | some c => exact decide_eq_true (of_decide_eq_true h)

/-- The counter saturates (R117). -/
theorem atMost_satInc {n : Nat} {m : Option Nat} (h : atMost n m = true) : atMost (satInc m n) m = true := by
  cases m with
  | none => rfl
  | some m =>
    have hn : n ≤ m := of_decide_eq_true h
    by_cases hlt : n < m
    · simp [satInc, atMost, hlt]
    · simpa [satInc, atMost, hlt] using hn

/-- With `OUT_W ≥ 24` a decoded integer is the signed value of its field (R108). -/
theorem inSigned24_sextOut {outW : Nat} (h : 24 ≤ outW) (v : Field24) : inSigned24 (sextOut outW v) = true := by
  have hlo := BitVec.le_toInt v
  have hhi := BitVec.toInt_lt (x := v)
  simp only [inSigned24, sextOut, BitVec.toInt_signExtend_of_le h, Bool.and_eq_true, decide_eq_true_iff]
  omega

theorem legalEvent_sample {cfg : Config.Params} (h : cfg.wf = true) (w : Packet) :
    legalEvent cfg (.sample (decPri cfg.outW w) (decSec cfg.outW w)) = true := by
  simp [legalEvent, decPri, decSec, inSigned24_sextOut (outW_ge_of_wf h)]

/-- No transition writes the parameters (R28). -/
theorem exec_enabled_cfg {i : Instr} {s t : State} (he : enabled i s = true) (hx : exec i s = .next t) :
    t.cfg = s.cfg := by
  rcases exec_enabled_cases i s t he hx with
    ⟨-, rfl⟩ | ⟨b, -, -, rfl⟩ | ⟨-, rfl⟩ | ⟨-, w, -, -, rfl⟩ | ⟨-, w, -, -, rfl⟩ | ⟨-, -, -, rfl⟩ <;> rfl

/-- Each of the six transitions keeps the invariant (R30). -/
theorem exec_enabled_keeps_inv {i : Instr} {s t : State} (he : enabled i s = true) (hx : exec i s = .next t)
    (hs : Inv s) : Inv t := by
  obtain ⟨hwf, hlen, hcnt, hout⟩ := hs
  rcases exec_enabled_cases i s t he hx with
    ⟨-, rfl⟩ | ⟨b, -, hr, rfl⟩ | ⟨-, rfl⟩ | ⟨-, w, -, -, rfl⟩ | ⟨-, w, -, -, rfl⟩ | ⟨-, -, -, rfl⟩
  · -- `RESET`
    exact ⟨hwf, atMost_zero _, atMost_zero _, rfl⟩
  · -- `PUSH` where `READY`
    have hroom : atMost (s.buf.length + 1) s.cfg.bufCap = true := atMost_succ_of_hasRoom hr
    exact ⟨hwf, by simpa [len] using hroom, hcnt, hout⟩
  · -- `TICK`
    exact ⟨hwf, hlen, hcnt, hout⟩
  · -- `ACCEPT`
    have hlegal := legalEvent_sample hwf w
    exact ⟨hwf, atMost_of_le (by simp [len]) hlen, atMost_satInc hcnt, by simp [hout, hlegal]⟩
  · -- `DROP`
    exact ⟨hwf, atMost_of_le (by simp [len]) hlen, hcnt, hout⟩
  · -- `REPORT`
    have hlegal : legalEvent s.cfg (.report s.cnt) = true := hcnt
    exact ⟨hwf, hlen, atMost_zero _, by simp [hout, hlegal]⟩

end Sys2Proof.Machine
end

section
/-! PROOFS. The obligations of 00_scope.md. -/

namespace Sys2Proof.Machine

/-- Settles O53: a step changes only the inputs, which the invariant does not read, or is an enabled transition. -/
theorem stepKeepsInv : Obligations.StepKeepsInv := by
  intro s t hs h
  rcases step_cases h with ht | ⟨i, u, he, hx, ht⟩ <;> rw [ht]
  · exact ⟨hs, rfl⟩
  · have hu : Inv u := exec_enabled_keeps_inv he hx hs
    have hcfg : u.cfg = s.cfg := exec_enabled_cfg he hx
    exact ⟨hu, hcfg⟩

/-- Settles O56: soundness by the cases of a step, completeness by inputs that make the transition the next step. -/
theorem stepsAreTheSixTransitions : Obligations.StepsAreTheSixTransitions := by
  refine ⟨fun s t h => step_cases h, fun i s he => ?_⟩
  obtain ⟨o, r, hstep⟩ := exists_inputs_of_enabled i s he
  obtain ⟨u, hu⟩ := exec_of_enabled i s he
  exact ⟨o, r, u, u.withInputs [] [], hu, hstep.trans (exec_withInputs_of_enabled [] [] he hu), rfl⟩

/-- Settles O55: by whose turn it is, and in the host's turn by whether the head word's byte waits. -/
theorem stepRunsTheDecodedInstruction : Obligations.StepRunsTheDecodedInstruction := by
  intro s hostRuns
  have host (w ws r) (hf : fetch s = hostTurn { s with sched := r }) (ho : s.offers = w :: ws) : hostRuns w ws r := by
    have hwaits := pushWaits_eq_true_iff w { s with sched := r }
    exact ⟨fun hw i hi => by
        cases (decode_port_evBytes w).symm.trans hi
        exact step_of_fetch (hf.trans (hostTurn_of_taken ho (Bool.eq_false_iff.2 (mt hwaits.1 hw)))),
      fun hw ht => step_of_fetch (hf.trans (hostTurn_of_waits_tick ho (hwaits.2 hw) ht)),
      fun hw ht => step_of_fetch (hf.trans (hostTurn_of_waits_alone ho (hwaits.2 hw) ht))⟩
  refine ⟨fun r hs => step_of_fetch (fetch_of_block hs), fun r hs => ⟨fun ho => ?_, fun w ws ho => ?_⟩,
    fun hs => ⟨fun hq => step_of_fetch (fetch_of_busy hs hq), fun hq ho => ?_, fun hq w ws ho => ?_⟩⟩
  · exact step_of_fetch ((fetch_of_host hs).trans (hostTurn_of_nothing ho))
  · exact host w ws r (fetch_of_host hs) ho
  · exact step_of_nothing hs ho hq
  · exact host w ws [] (fetch_of_quiescent hs hq ho) ho

end Sys2Proof.Machine
end

section
/-! PROOFS. `RESET`, `PUSH`, `TICK` and the flags they touch, an equation each; and how a fold over the labels of a run
reads one label at a time. -/

namespace Sys2Proof.Machine

/-- `PUSH` where `READY` appends (R85). -/
theorem exec_push_of_ready (b : Byte) {s : State} (h : ready s = true) :
    exec (.push b) s = .next (appendTail b s) := congrArg Host.Outcome.next (if_pos h)

/-- `PUSH` where `READY = 0` does not happen (log entry 16). -/
theorem exec_push_of_not_ready (b : Byte) {s : State} (h : ready s = false) :
    exec (.push b) s = .next s := congrArg Host.Outcome.next (if_neg (Bool.eq_false_iff.1 h))

/-- `READY = (LEN < BUF_CAP)` (R22). -/
theorem ready_iff_of_bound {s : State} {n : Nat} (h : s.cfg.bufCap = some n) :
    ready s = true ↔ s.buf.length < n := by
  rw [ready, h]
  exact decide_eq_true_iff

/-- An unbounded buffer always has room (R22). -/
theorem ready_of_unbounded {s : State} (h : s.cfg.bufCap = none) : ready s = true := by
  simp [ready, hasRoom, h]

/-- Where a window is there, 8 bytes are. -/
theorem length_ge_of_window {s : State} {w : Packet} (h : window s = some w) : 8 ≤ s.buf.length := by
  have hne : ¬ s.buf.length < 8 := by simp [← window_eq_none_iff, h]
  omega

/-- The test of `CRC.CHECK` on eight bytes (R74). -/
theorem pktValid_pktOfBytes (b0 b1 b2 b3 b4 b5 b6 b7 : Byte) :
    pktValid (pktOfBytes b0 b1 b2 b3 b4 b5 b6 b7) = decide (crc16 [b0, b1, b2, b3, b4, b5, b6, b7] = 0x0000#16) := by
  rw [pktValid, pktByte_pktOfBytes]
  rfl

/-- The block selects one of four. -/
theorem selected_cases (s : State) :
    selected s = .accept ∨ selected s = .drop ∨ selected s = .report ∨ selected s = .wait := by
  rw [selected_eq]
  split <;> split <;> simp

@[simp] theorem pushed_append (a b : List Instr) : pushed (a ++ b) = pushed a ++ pushed b :=
  List.filterMap_append

@[simp] theorem pushed_singleton (i : Instr) : pushed [i] = (pushOf i).toList := by cases i <;> rfl

@[simp] theorem accepts_append (a b : List Instr) : accepts (a ++ b) = accepts a + accepts b :=
  List.count_append

theorem consumed_cons (i : Instr) (is : List Instr) : consumed (i :: is) = consumed [i] + consumed is := by
  cases i <;> simp [consumed]

@[simp] theorem consumed_append (a b : List Instr) : consumed (a ++ b) = consumed a + consumed b := by
  induction a with
  | nil => simp [consumed]
  | cons i is ih => rw [List.cons_append, consumed_cons, ih, consumed_cons i is, Nat.add_assoc]

theorem acceptsSince_cons (n : Nat) (i : Instr) (is : List Instr) :
    acceptsSince n (i :: is) = acceptsSince (acceptsSince n [i]) is := by
  cases i <;> rfl

theorem acceptsSince_append (n : Nat) (a b : List Instr) :
    acceptsSince n (a ++ b) = acceptsSince (acceptsSince n a) b := by
  induction a generalizing n with
  | nil => rfl
  | cons i is ih => rw [List.cons_append, acceptsSince_cons, ih, ← acceptsSince_cons]

end Sys2Proof.Machine
end

section
/-! PROOFS. What holds along a run, by its last label: the parameters stay, `CNT` and the samples count `ACCEPT` labels
(R30 items 4 and 5), `BUF` is a piece of the stream (R30 item 2). -/

namespace Sys2Proof.Machine

/-- A property of the labels taken so far and the state reached, which holds at the start and is kept by every enabled
transition, holds at the end of every run. -/
theorem runLabels_induction {Q : List Instr → State → Prop} {s : State} (start : Q [] s)
    (keep : ∀ ls i u v, Q ls u → enabled i u = true → exec i u = .next v → Q (ls ++ [i]) v)
    {ls : List Instr} {t : State} (h : runLabels ls s = some t) : Q ls t := by
  induction ls using List.reverseRecOn generalizing t with
  | nil =>
    cases h
    exact start
  | append_singleton ls i ih =>
    obtain ⟨u, hu, hi⟩ := (runLabels_append_iff _ _ _ _).1 h
    obtain ⟨v, he, hx, hv⟩ := (runLabels_cons_iff _ _ _ _).1 hi
    cases hv
    exact keep ls i u t (ih hu) he hx

theorem capped_of_atMost {m : Option Nat} {n : Nat} (h : atMost n m = true) : capped m n = n := by
  cases m with
  | none => rfl
  | some m => exact Nat.min_eq_left (of_decide_eq_true h)

@[simp] theorem capped_zero (m : Option Nat) : capped m 0 = 0 := capped_of_atMost (atMost_zero m)

/-- Counting up from a capped count is capping the count (R117). -/
theorem satInc_capped (m : Option Nat) (n : Nat) : satInc m (capped m n) = capped m (n + 1) := by
  cases m with
  | none => rfl
  | some m =>
    rcases Nat.lt_or_ge n m with hn | hn
    · simp [satInc, capped, Nat.min_eq_left (Nat.le_of_lt hn), hn]
    · simp [satInc, capped, Nat.min_eq_right hn, Nat.min_eq_right (Nat.le_succ_of_le hn)]

/-- One transition: `CNT` follows the number of `ACCEPT` labels since the last `REPORT` or `RESET`. -/
theorem exec_enabled_cnt {i : Instr} {s t : State} {n : Nat} (he : enabled i s = true) (hx : exec i s = .next t)
    (hn : s.cnt = capped s.cfg.cntMax n) : t.cnt = capped s.cfg.cntMax (acceptsSince n [i]) := by
  rcases exec_enabled_cases i s t he hx with
    ⟨rfl, rfl⟩ | ⟨b, rfl, -, rfl⟩ | ⟨rfl, rfl⟩ | ⟨rfl, w, -, -, rfl⟩ | ⟨rfl, w, -, -, rfl⟩ | ⟨rfl, -, -, rfl⟩
  · exact (capped_zero _).symm
  · exact hn
  · exact hn
  · rw [acceptOp_cnt, hn]
    exact satInc_capped _ _
  · exact hn
  · exact (capped_zero _).symm

/-- One transition but `RESET`: `ACCEPT`, and nothing else, adds one sample (R107). -/
theorem exec_enabled_samples_length {i : Instr} {s t : State} (he : enabled i s = true) (hx : exec i s = .next t)
    (hi : i ≠ .reset) : (samplesOf t.out).length = (samplesOf s.out).length + accepts [i] := by
  rcases exec_enabled_cases i s t he hx with
    ⟨rfl, -⟩ | ⟨b, rfl, -, rfl⟩ | ⟨rfl, rfl⟩ | ⟨rfl, w, -, -, rfl⟩ | ⟨rfl, w, -, -, rfl⟩ | ⟨rfl, -, -, rfl⟩
  · exact absurd rfl hi
  · rfl
  · rfl
  · rw [acceptOp_out, samplesOf_append, List.length_append]
    rfl
  · rfl
  · rw [reportOp_out, samplesOf_append, List.length_append]
    rfl

/-- One transition but `RESET`: what it pushes comes behind `BUF`, what it consumes is gone from its head (R33, R35). -/
theorem exec_enabled_buf {i : Instr} {s t : State} (he : enabled i s = true) (hx : exec i s = .next t)
    (hi : i ≠ .reset) :
    t.buf = (s.buf ++ pushed [i]).drop (consumed [i]) ∧ consumed [i] ≤ (s.buf ++ pushed [i]).length := by
  rcases exec_enabled_cases i s t he hx with
    ⟨rfl, -⟩ | ⟨b, rfl, -, rfl⟩ | ⟨rfl, rfl⟩ | ⟨rfl, w, hw, -, rfl⟩ | ⟨rfl, w, hw, -, rfl⟩ | ⟨rfl, -, -, rfl⟩
  · exact absurd rfl hi
  · simp [pushOf, consumed]
  · simp [pushOf, consumed]
  · have h8 : 8 ≤ s.buf.length := length_ge_of_window hw
    simpa [pushOf, consumed] using h8
  · have h1 : 1 ≤ s.buf.length := le_trans (by decide) (length_ge_of_window hw)
    simpa [pushOf, consumed] using h1
  · simp [pushOf, consumed]

/-- R30 item 4 along a run. -/
theorem runLabels_cnt {ls : List Instr} {s t : State} (hs : atMost s.cnt s.cfg.cntMax = true)
    (h : runLabels ls s = some t) : t.cnt = capped s.cfg.cntMax (acceptsSince s.cnt ls) := by
  refine (runLabels_induction
    (Q := fun l u => u.cfg = s.cfg ∧ u.cnt = capped s.cfg.cntMax (acceptsSince s.cnt l))
    ⟨rfl, (capped_of_atMost hs).symm⟩ ?_ h).2
  rintro l i u v ⟨hcfg, hcnt⟩ he hx
  have hv := exec_enabled_cnt he hx (by rwa [hcfg])
  rw [acceptsSince_append, ← hcfg]
  exact ⟨exec_enabled_cfg he hx, hv⟩

/-- R30 item 5 along a run without `RESET`. -/
theorem runLabels_samples_length {ls : List Instr} {s t : State} (hr : Instr.reset ∉ ls)
    (h : runLabels ls s = some t) : (samplesOf t.out).length = (samplesOf s.out).length + accepts ls := by
  refine runLabels_induction
    (Q := fun l u => Instr.reset ∉ l → (samplesOf u.out).length = (samplesOf s.out).length + accepts l)
    (fun _ => rfl) ?_ h hr
  intro l i u v hu he hx hl
  simp only [List.mem_append, List.mem_singleton, not_or] at hl
  rw [exec_enabled_samples_length he hx (Ne.symm hl.2), hu hl.1, accepts_append, Nat.add_assoc]

/-- R30 item 2 along a run without `RESET`, from any buffer. -/
theorem runLabels_buf {ls : List Instr} {s t : State} (hr : Instr.reset ∉ ls) (h : runLabels ls s = some t) :
    t.buf = (s.buf ++ pushed ls).drop (consumed ls) ∧ consumed ls ≤ (s.buf ++ pushed ls).length := by
  refine runLabels_induction
    (Q := fun l u => Instr.reset ∉ l →
      u.buf = (s.buf ++ pushed l).drop (consumed l) ∧ consumed l ≤ (s.buf ++ pushed l).length)
    (fun _ => ⟨(List.append_nil _).symm, Nat.zero_le _⟩) ?_ h hr
  intro l i u v hu he hx hl
  simp only [List.mem_append, List.mem_singleton, not_or] at hl
  obtain ⟨hbuf, hle⟩ := hu hl.1
  obtain ⟨hv, hk⟩ := exec_enabled_buf he hx (Ne.symm hl.2)
  rw [hbuf] at hv hk
  rw [← List.drop_append_of_le_length hle] at hv hk
  simp only [List.length_drop, List.length_append] at hk hle
  constructor
  · rw [hv, List.drop_drop, pushed_append, consumed_append, List.append_assoc]
  · simp only [pushed_append, consumed_append, List.length_append]
    omega

end Sys2Proof.Machine
end

section
/-! PROOFS. What is not in the block view (`ACC`, the result field, the free-value counter, the inputs of the run) plays
no part in a run (R16, R27, R75). -/

namespace Sys2Proof.Machine

/-- The block of `s` with everything outside its view taken from `u`. -/
def State.withHiddenOf (s u : State) : State :=
  { u with buf := s.buf, cnt := s.cnt, tpend := s.tpend, out := s.out, cfg := s.cfg }

theorem eq_withHiddenOf {s s' : State} (h : blockView s = blockView s') : s' = s.withHiddenOf s' := by
  simp only [blockView, BlockView.mk.injEq] at h
  obtain ⟨hbuf, hcnt, htpend, hout, hcfg⟩ := h
  simp [State.withHiddenOf, hbuf, hcnt, htpend, hout, hcfg]

theorem enabled_withHiddenOf (i : Instr) (s u : State) : enabled i (s.withHiddenOf u) = enabled i s := by
  cases i <;> rfl

/-- An enabled transition does the same to the view whatever is hidden. -/
theorem exec_withHiddenOf {i : Instr} {s t : State} (u : State) (he : enabled i s = true)
    (hx : exec i s = .next t) : ∃ t', exec i (s.withHiddenOf u) = .next t' ∧ blockView t = blockView t' := by
  rcases exec_enabled_cases i s t he hx with
    ⟨rfl, rfl⟩ | ⟨b, rfl, hr, rfl⟩ | ⟨rfl, rfl⟩ | ⟨rfl, w, hw, hv, rfl⟩ | ⟨rfl, w, hw, hv, rfl⟩ | ⟨rfl, hp, hl, rfl⟩
  · exact ⟨_, rfl, rfl⟩
  · exact ⟨_, exec_push_of_ready b hr, rfl⟩
  · exact ⟨_, rfl, rfl⟩
  · exact ⟨_, (execAccept_eq_next_iff _ _).2 ⟨w, hw, hv, rfl⟩, rfl⟩
  · exact ⟨_, (execDrop_eq_next_iff _ _).2 ⟨w, hw, hv, rfl⟩, rfl⟩
  · exact ⟨_, (execReport_eq_next_iff _ _).2 ⟨hp, hl, rfl⟩, rfl⟩

/-- Runs from states of one view are enabled alike and end in states of one view. -/
theorem runLabels_blockView (ls : List Instr) {s s' : State} (h : blockView s = blockView s') :
    (runLabels ls s).map blockView = (runLabels ls s').map blockView := by
  induction ls generalizing s s' with
  | nil => exact congrArg some h
  | cons i is ih =>
    have hs' := eq_withHiddenOf h
    have hen : enabled i s' = enabled i s := by rw [hs', enabled_withHiddenOf]
    by_cases he : enabled i s = true
    · obtain ⟨t, hx⟩ := exec_of_enabled i s he
      obtain ⟨t', hx', ht⟩ := exec_withHiddenOf s' he hx
      rw [← hs'] at hx'
      simpa [runLabels, hen, he, hx, hx'] using ih ht
    · simp [runLabels, hen, he]

end Sys2Proof.Machine
end

section
/-! PROOFS. The output signals (R23): what each operation of a step or a cycle emits is what its signals carry. -/

namespace Sys2Proof.Machine

/-- The payload's `OUT_W` bits hold the decoded integer, for every `OUT_W`. -/
theorem outBits_sextOut_toInt (outW : Nat) (v : Field24) : (outBits outW (sextOut outW v)).toInt = sextOut outW v := by
  rw [outBits, sextOut, BitVec.ofInt_toInt]

/-- `report_count` has `CNT_W` bits, valid or not (R23). -/
theorem signalsOf_reportCount_lt (i : Instr) {s : State} {w : Nat} (h : s.cfg.cntW = some w) :
    (signalsOf i s).reportCount < 2 ^ w := by
  simp only [signalsOf, cutTo, h]
  exact Nat.mod_lt _ (Nat.two_pow_pos w)

/-- A count in range is not cut (R117). -/
theorem cutTo_of_atMost {p : Config.Params} {n : Nat} (h : atMost n p.cntMax = true) : cutTo p.cntW n = n := by
  rcases hw : p.cntW with _ | w
  · rfl
  · have hle : n ≤ 2 ^ w - 1 := by simpa [Config.Params.cntMax, hw, atMost] using h
    exact cutTo_of_lt w n (by have := Nat.two_pow_pos w; omega)

theorem carried_signalsOf_accept {s : State} {w : Packet} (h : window s = some w) :
    carried (signalsOf .accept s) = [.sample (decPri s.cfg.outW w) (decSec s.cfg.outW w)] := by
  simp [carried, signalsOf, payload, h, decPri, decSec, outBits_sextOut_toInt]

theorem carried_signalsOf_report {s : State} (h : atMost s.cnt s.cfg.cntMax = true) :
    carried (signalsOf .report s) = [.report s.cnt] := by
  simp [carried, signalsOf, payload, cutTo_of_atMost h]

/-- `PUSH` emits nothing, taken or not. -/
theorem exec_push_out {b : Byte} {s t : State} (h : exec (.push b) s = .next t) : t.out = s.out := by
  by_cases hr : ready s = true
  · cases (exec_push_of_ready b hr).symm.trans h
    rfl
  · cases (exec_push_of_not_ready b (Bool.eq_false_iff.2 hr)).symm.trans h
    rfl

theorem exec_tick_out {s t : State} (h : exec .tick s = .next t) : t.out = s.out := by
  cases h
  rfl

theorem exec_reset_out {s t : State} (h : exec .reset s = .next t) : t.out = [] := by
  cases h
  rfl

/-- The block's selected step emits what its signals carry. -/
theorem exec_selected_out {s t : State} (hs : atMost s.cnt s.cfg.cntMax = true)
    (h : exec (selected s) s = .next t) : t.out = s.out ++ carried (signalsOf (selected s) s) := by
  rcases selected_cases s with hsel | hsel | hsel | hsel <;> rw [hsel] at h ⊢
  · obtain ⟨w, hw, -, rfl⟩ := (execAccept_eq_next_iff s t).1 h
    rw [carried_signalsOf_accept hw, acceptOp_out]
  · obtain ⟨w, -, -, rfl⟩ := (execDrop_eq_next_iff s t).1 h
    simp [carried_signalsOf_other]
  · obtain ⟨-, -, rfl⟩ := (execReport_eq_next_iff s t).1 h
    rw [carried_signalsOf_report hs, reportOp_out]
  · obtain ⟨-, rfl⟩ := (execWait_eq_next_iff s t).1 h
    simp [carried_signalsOf_other]

/-- What a fetch can give, but `RESET`, emits what its signals carry: the block's step does, and the host's other events
emit nothing. -/
theorem exec_fetched_out {i : Instr} {s t : State} (hs : atMost s.cnt s.cfg.cntMax = true)
    (hi : i = selected s ∨ i = .reset ∨ (∃ b, i = .push b) ∨ i = .tick ∨ i = .noEvent) (hr : i ≠ .reset)
    (h : exec i s = .next t) : t.out = s.out ++ carried (signalsOf i s) := by
  rcases hi with rfl | rfl | ⟨b, rfl⟩ | rfl | rfl
  · exact exec_selected_out hs h
  · exact absurd rfl hr
  · simp [carried_signalsOf_other, exec_push_out h]
  · simp [carried_signalsOf_other, exec_tick_out h]
  · cases h
    simp [carried_signalsOf_other]

theorem andThen_eq_next_iff (r : Result) (f : State → Result) (t : State) :
    andThen r f = .next t ↔ ∃ u, r = .next u ∧ f u = .next t := by
  cases r <;> simp [andThen]

/-- A cycle without `rst` emits what its internal step emits: `PUSH` and `TICK` behind it emit nothing (R59). -/
theorem cycle_out {w : EvWord} {s t : State} (hw : Ev.rst w = false) (h : cycle w s = .next t) :
    ∃ u, exec (selected s) s = .next u ∧ t.out = u.out := by
  simp only [cycle, hw, Bool.false_eq_true, if_false, andThen_eq_next_iff] at h
  obtain ⟨u, hu, v, hv, ht⟩ := h
  have hvu : v.out = u.out := by
    split at hv
    · exact exec_push_out hv
    · cases hv
      rfl
  have htv : t.out = v.out := by
    split at ht
    · exact exec_tick_out ht
    · cases ht
      rfl
  exact ⟨u, hu, htv.trans hvu⟩

end Sys2Proof.Machine
end

section
/-! PROOFS. The obligations of 10_state.md. -/

namespace Sys2Proof.Machine

/-- Settles O3: what is hidden plays no part in a run, and after `RESET` all but the parameters is the same. -/
theorem runsDependOnlyOnTheBlocksState : Obligations.RunsDependOnlyOnTheBlocksState := by
  refine ⟨fun ls s s' h => runLabels_blockView ls h, fun ls s s' hcfg => ?_⟩
  have hview : blockView (resetOp s) = blockView (resetOp s') := by simp [blockView, hcfg]
  exact runLabels_blockView ls hview

/-- Settles O4, by the six transitions. -/
theorem onlyTheListedStepsWrite : Obligations.OnlyTheListedStepsWrite := by
  intro i s t he hx
  rcases exec_enabled_cases i s t he hx with
    ⟨rfl, rfl⟩ | ⟨b, rfl, -, rfl⟩ | ⟨rfl, rfl⟩ | ⟨rfl, w, -, -, rfl⟩ | ⟨rfl, w, -, -, rfl⟩ | ⟨rfl, -, -, rfl⟩ <;>
    simp

/-- Settles O15: the bytes of the window are the eight, and so are the first of the buffer. -/
theorem crcCheckRunsAllEightBytes : Obligations.CrcCheckRunsAllEightBytes := by
  intro b0 b1 b2 b3 b4 b5 b6 b7 rest s
  refine ⟨?_, fun hbuf => ?_⟩
  · rw [← pktValid_pktOfBytes, ← pktByte_pktOfBytes]
    rfl
  · have h8 : 8 ≤ s.buf.length := by simp [hbuf]
    rw [valid_of_ge s h8, hbuf]
    rfl

/-- Settles O22, by `READY`. -/
theorem pushAppendsOneByte : Obligations.PushAppendsOneByte := by
  intro b s
  refine ⟨exec_push_of_ready b, exec_push_of_not_ready b, fun n => ready_iff_of_bound, ready_of_unbounded,
    fun t hr h => ?_⟩
  cases (exec_push_of_ready b hr).symm.trans h
  simp

/-- Settles O50: both counts along a run. -/
theorem counterAndSamplesCountAccepts : Obligations.CounterAndSamplesCountAccepts :=
  fun _ _ _ hs h => ⟨runLabels_cnt hs h, fun hr => runLabels_samples_length hr h⟩

/-- Settles O51: the run's equation for `BUF`, from an empty buffer. -/
theorem bufferIsAPieceOfTheStream : Obligations.BufferIsAPieceOfTheStream := by
  intro ls s t hs hr h
  have hbuf := runLabels_buf hr h
  rwa [hs, List.nil_append] at hbuf

/-- Settles O52: at reset `LEN` and `CNT` are 0 and the trace is empty. -/
theorem invHoldsAtReset : Obligations.InvHoldsAtReset := ⟨by decide, atMost_zero _, atMost_zero _, rfl⟩

/-- Settles O58: `RESET` apart, a cycle emits what its internal step does, and a step what its operation does; the
inputs of the run, which a fetch changes, are on no signal. -/
theorem signalsCarryTheEmission : Obligations.SignalsCarryTheEmission := by
  intro s _ hcnt
  refine ⟨fun w t h => ⟨fun hw => ?_, fun hw => ?_⟩, fun t h => ⟨fun hi => ?_, fun hi => ?_⟩,
    fun i w hw => signalsOf_reportCount_lt i hw⟩
  · have hop : cycleOp w s = .reset := if_pos hw
    have hx : exec .reset s = .next t := (if_pos hw).symm.trans h
    rw [cycleSignals, hop]
    exact ⟨carried_signalsOf_other _ s (by decide) (by decide), exec_reset_out hx⟩
  · have hop : cycleOp w s = selected s := if_neg (Bool.eq_false_iff.1 hw)
    obtain ⟨u, hu, ht⟩ := cycle_out hw h
    rw [cycleSignals, hop, ht]
    exact exec_selected_out hcnt hu
  · rw [step, hi] at h
    rw [stepSignals, hi]
    exact ⟨carried_signalsOf_other _ s (by decide) (by decide), exec_reset_out h⟩
  · obtain ⟨hcases, o, r, hstate⟩ := fetch_cases s
    rw [step] at h
    rw [hstate] at hcases h
    exact exec_fetched_out (s := s.withInputs o r) hcnt hcases hi h

end Sys2Proof.Machine
end

section
/-! PROOFS. What commutes: `PUSH` with the framer's step, since the byte comes behind the window and the step only makes
room (R46), and `TICK` with every operation that neither reads nor writes `TPEND` (R47). -/

namespace Sys2Proof.Machine

/-- A run of two labels, from its two transitions. -/
theorem runLabels_pair {i j : Instr} {s u t : State} (hi : enabled i s = true) (hu : exec i s = .next u)
    (hj : enabled j u = true) (ht : exec j u = .next t) : runLabels [i, j] s = some t :=
  (runLabels_cons_iff _ _ _ _).2 ⟨u, hi, hu, (runLabels_cons_iff _ _ _ _).2 ⟨t, hj, ht, rfl⟩⟩

/-- A run executes its labels one after another. -/
theorem execSeq_of_runLabels {ls : List Instr} {s t : State} (h : runLabels ls s = some t) :
    execSeq ls s = .next t := by
  induction ls generalizing s with
  | nil => exact congrArg Host.Outcome.next (Option.some.inj h)
  | cons i is ih =>
    obtain ⟨u, -, hu, hrest⟩ := (runLabels_cons_iff _ _ _ _).1 h
    exact (andThen_eq_next_iff _ _ _).2 ⟨u, hu, ih hrest⟩

/-- A byte behind the window does not change it (R33, R34). -/
theorem window_appendTail (b : Byte) {s : State} (h8 : 8 ≤ s.buf.length) : window (appendTail b s) = window s :=
  leadingPkt_append s.buf [b] h8

/-- Removing from the head of `BUF` and appending at its tail commute as long as the head is there (R33, R35). -/
theorem popHead_appendTail {n : Nat} (b : Byte) {s : State} (h : n ≤ s.buf.length) :
    popHead n (appendTail b s) = appendTail b (popHead n s) := by
  simp [popHead, appendTail, List.drop_append_of_le_length h]

theorem acceptOp_appendTail (w : Packet) (b : Byte) {s : State} (h8 : 8 ≤ s.buf.length) :
    acceptOp w (appendTail b s) = appendTail b (acceptOp w s) :=
  popHead_appendTail (s := incCnt (emitSample _ _ (disturbAcc s))) b h8

theorem dropOp_appendTail (b : Byte) {s : State} (h1 : 1 ≤ s.buf.length) :
    dropOp (appendTail b s) = appendTail b (dropOp s) :=
  popHead_appendTail (s := disturbAcc s) b h1

/-- Fewer bytes leave room where more did (R22). -/
theorem hasRoom_of_le {cap : Option Nat} {m n : Nat} (hmn : m ≤ n) (hn : hasRoom cap n = true) :
    hasRoom cap m = true := by
  cases cap with
  | none => rfl
  | some c => exact decide_eq_true (hmn.trans_lt (of_decide_eq_true hn))

/-- What `ACCEPT` and `DROP` do is the framer's step (R86). -/
theorem framerStep_of_exec {i : Instr} {s t : State} (hi : i = .accept ∨ i = .drop) (hx : exec i s = .next t) :
    framerStep s = some t := by
  rcases hi with rfl | rfl
  · obtain ⟨w, hw, hv, rfl⟩ := (execAccept_eq_next_iff s t).1 hx
    simp [framerStep, hw, hv]
  · obtain ⟨w, hw, hv, rfl⟩ := (execDrop_eq_next_iff s t).1 hx
    simp [framerStep, hw, hv]

/-- The framer's step keeps `READY` (R22, R91). -/
theorem ready_of_framerStep {s t : State} (h : framerStep s = some t) (hr : ready s = true) : ready t = true := by
  obtain ⟨hlen, -, -, -, -, hcfg⟩ := framerStep_spec s t h
  rw [ready, hcfg]
  exact hasRoom_of_le hlen.le hr

/-- A byte more behind a window enables no other framer step. -/
theorem enabled_framer_appendTail {i : Instr} (b : Byte) {s : State} (hi : i = .accept ∨ i = .drop)
    (h8 : 8 ≤ s.buf.length) : enabled i (appendTail b s) = enabled i s := by
  have hhave : have8 (appendTail b s) = have8 s := by
    rw [(have8_eq_true_iff s).2 h8, have8_eq_true_iff]
    simpa using Nat.le_succ_of_le h8
  have hvalid : valid (appendTail b s) = valid s := by rw [valid, window_appendTail b h8, valid]
  rcases hi with rfl | rfl <;> simp only [enabled, hhave, hvalid]

/-- The framer's step takes a byte more behind the window along (R46). -/
theorem exec_framer_appendTail {i : Instr} {s t : State} (b : Byte) (hi : i = .accept ∨ i = .drop)
    (hx : exec i s = .next t) : exec i (appendTail b s) = .next (appendTail b t) := by
  rcases hi with rfl | rfl
  · obtain ⟨w, hw, hv, rfl⟩ := (execAccept_eq_next_iff s t).1 hx
    have h8 := length_ge_of_window hw
    exact (execAccept_eq_next_iff _ _).2 ⟨w, (window_appendTail b h8).trans hw, hv, acceptOp_appendTail w b h8⟩
  · obtain ⟨w, hw, hv, rfl⟩ := (execDrop_eq_next_iff s t).1 hx
    have h8 := length_ge_of_window hw
    exact (execDrop_eq_next_iff _ _).2
      ⟨w, (window_appendTail b h8).trans hw, hv, dropOp_appendTail b (le_trans (by decide) h8)⟩

/-- `PUSH` and the enabled framer step in either order are runs to one state (R46). -/
theorem exists_runs_push_framer {i : Instr} {s : State} (b : Byte) (hi : i = .accept ∨ i = .drop)
    (h8 : 8 ≤ s.buf.length) (hr : ready s = true) (he : enabled i s = true) :
    ∃ t, runLabels [.push b, i] s = some t ∧ runLabels [i, .push b] s = some t := by
  obtain ⟨t, hx⟩ := exec_of_enabled i s he
  have hrt : ready t = true := ready_of_framerStep (framerStep_of_exec hi hx) hr
  exact ⟨appendTail b t,
    runLabels_pair hr (exec_push_of_ready b hr) ((enabled_framer_appendTail b hi h8).trans he)
      (exec_framer_appendTail b hi hx),
    runLabels_pair he hx hrt (exec_push_of_ready b hrt)⟩

theorem exec_tick (s : State) : exec .tick s = .next { s with tpend := true } := rfl

/-- `PUSH`, `ACCEPT` and `DROP` are enabled alike whatever `TPEND` is. -/
theorem enabled_setTpend {i : Instr} (hi : i = .accept ∨ i = .drop ∨ ∃ b, i = .push b) (p : Bool) (s : State) :
    enabled i { s with tpend := p } = enabled i s := by
  rcases hi with rfl | rfl | ⟨b, rfl⟩ <;> rfl

/-- `PUSH`, `ACCEPT` and `DROP` do the same whatever `TPEND` is, and leave it alone. -/
theorem exec_setTpend_of_enabled {i : Instr} {s t : State} (hi : i = .accept ∨ i = .drop ∨ ∃ b, i = .push b)
    (p : Bool) (he : enabled i s = true) (hx : exec i s = .next t) :
    exec i { s with tpend := p } = .next { t with tpend := p } := by
  rcases hi with rfl | rfl | ⟨b, rfl⟩
  · obtain ⟨w, hw, hv, rfl⟩ := (execAccept_eq_next_iff s t).1 hx
    exact (execAccept_eq_next_iff _ _).2 ⟨w, hw, hv, rfl⟩
  · obtain ⟨w, hw, hv, rfl⟩ := (execDrop_eq_next_iff s t).1 hx
    exact (execDrop_eq_next_iff _ _).2 ⟨w, hw, hv, rfl⟩
  · cases (exec_push_of_ready b he).symm.trans hx
    exact exec_push_of_ready (s := { s with tpend := p }) b he

/-- `TICK` and `PUSH`, `ACCEPT` or `DROP` in either order are runs to one state (R47). -/
theorem exists_runs_tick {i : Instr} {s : State} (hi : i = .accept ∨ i = .drop ∨ ∃ b, i = .push b)
    (he : enabled i s = true) : ∃ t, runLabels [.tick, i] s = some t ∧ runLabels [i, .tick] s = some t := by
  obtain ⟨t, hx⟩ := exec_of_enabled i s he
  exact ⟨{ t with tpend := true },
    runLabels_pair rfl (exec_tick s) ((enabled_setTpend hi true s).trans he) (exec_setTpend_of_enabled hi true he hx),
    runLabels_pair he hx rfl (exec_tick t)⟩

/-- A `TICK` while a report is pending changes nothing (R119). -/
theorem exec_tick_of_pending {s : State} (h : s.tpend = true) : exec .tick s = .next s := by
  rw [exec_tick, ← h]

/-- An enabled `REPORT` has a report pending, and does its body (R120). -/
theorem exec_report_of_enabled {s : State} (he : enabled .report s = true) :
    s.tpend = true ∧ exec .report s = .next (reportOp s) := by
  obtain ⟨t, hx⟩ := exec_of_enabled .report s he
  obtain ⟨hp, -, rfl⟩ := (execReport_eq_next_iff s t).1 hx
  exact ⟨hp, hx⟩

end Sys2Proof.Machine
end

section
/-! PROOFS. The two fields of a window given as bytes (R104). -/

namespace Sys2Proof.Machine

theorem ext24_k0_pktOfBytes (b0 b1 b2 b3 b4 b5 b6 b7 : Byte) :
    ext24 .k0 (pktOfBytes b0 b1 b2 b3 b4 b5 b6 b7) = b0 ++ b1 ++ b2 := by
  have hbytes := pktByte_pktOfBytes b0 b1 b2 b3 b4 b5 b6 b7
  simp only [pktBytes, List.cons.injEq] at hbytes
  obtain ⟨h0, h1, h2, -⟩ := hbytes
  simp only [ext24, fieldOffset, Config.priOff, h0, h1, h2]

theorem ext24_k3_pktOfBytes (b0 b1 b2 b3 b4 b5 b6 b7 : Byte) :
    ext24 .k3 (pktOfBytes b0 b1 b2 b3 b4 b5 b6 b7) = b3 ++ b4 ++ b5 := by
  have hbytes := pktByte_pktOfBytes b0 b1 b2 b3 b4 b5 b6 b7
  simp only [pktBytes, List.cons.injEq] at hbytes
  obtain ⟨-, -, -, h3, h4, h5, -⟩ := hbytes
  simp only [ext24, fieldOffset, Config.secOff, h3, h4, h5]

end Sys2Proof.Machine
end

section
/-! PROOFS. The obligations of 20_memory.md. -/

namespace Sys2Proof.Machine

/-- Settles O31: the two orders are runs to one state, and a run executes its labels. -/
theorem pushCommutesWithFramerSteps : Obligations.PushCommutesWithFramerSteps := by
  intro b i s h8 hr hi he
  obtain ⟨t, hpush, hstep⟩ := exists_runs_push_framer b hi h8 hr he
  exact ⟨t, execSeq_of_runLabels hpush, execSeq_of_runLabels hstep, hpush, hstep⟩

/-- Settles O32: `PUSH`, `ACCEPT` and `DROP` neither read nor write `TPEND`; an enabled `REPORT` has it at 1, so that a
`TICK` before it changes nothing, and clears it. -/
theorem tickCommutesButNotWithReport : Obligations.TickCommutesButNotWithReport := by
  refine ⟨fun i s hi he => exists_runs_tick hi he, fun s he => ?_⟩
  obtain ⟨hp, hx⟩ := exec_report_of_enabled he
  exact ⟨_, _, runLabels_pair rfl (exec_tick_of_pending hp) he hx, runLabels_pair he hx rfl (exec_tick _), rfl, rfl⟩

/-- Settles O38: the two fields as bytes, and the number three bytes stand for. -/
theorem ext24IsBigEndian : Obligations.Ext24IsBigEndian := by
  intro b0 b1 b2 b3 b4 b5 b6 b7 s
  refine ⟨_, _, rfl, ?_, rfl, ?_⟩
  · rw [ext24_k0_pktOfBytes, field_toNat]
  · rw [ext24_k3_pktOfBytes, field_toNat]

end Sys2Proof.Machine
end

section
/-! PROOFS. The `EV` word that offers a `PUSH` and a `TICK`: what of it is still to come is the `TICK` (R59). -/

namespace Sys2Proof

/-- What is still to come of an `EV` word: the `TICK` offered with a `PUSH` (R59). -/
theorem evRest_eq (w : EvWord) :
    evRest w = if !Ev.rst w && Ev.inValid w && Ev.tick w then [Ev.withoutPush w] else [] := by
  simp only [evRest, evWord_matches_reset_iff, evWord_matches_push_tick_iff]
  by_cases hr : Ev.rst w = true <;> simp [hr]

/-- With its `PUSH` taken out, a word that offers both offers the `TICK` (R59). -/
theorem decodeEv_withoutPush {w : EvWord} (hr : Ev.rst w = false) (ht : Ev.tick w = true) :
    decodeEv (Ev.withoutPush w) = .tick := by
  have hr' : Ev.rst (Ev.withoutPush w) = false := by simpa [Ev.rst, Ev.withoutPush] using hr
  have ht' : Ev.tick (Ev.withoutPush w) = true := by simpa [Ev.tick, Ev.withoutPush] using ht
  have hv' : Ev.inValid (Ev.withoutPush w) = false := by simp [Ev.inValid, Ev.withoutPush]
  simp [decodeEv_eq, hr', ht', hv']

/-- The data byte of an `EV` word is its low 8 bits (R56). -/
theorem Ev.inData_eq_setWidth (w : EvWord) : Ev.inData w = w.setWidth 8 :=
  (BitVec.setWidth_eq_extractLsb' (by decide)).symm

end Sys2Proof
end

section
/-! PROOFS. The residue of a sealed sequence (R78): the accumulator's own bytes, low byte first, shift it out to zero. -/

namespace Sys2Proof.Machine

/-- While the low bits are zero every `CRC.SHIFT` is a plain right shift (R70). -/
theorem crcShifts_of_low_bits_zero {n : Nat} {a : Acc} (h : ∀ i < n, a.getLsbD i = false) :
    crcShifts n a = a >>> n := by
  induction n generalizing a with
  | zero => simp
  | succ n ih =>
    have hshift : crcShift a = a >>> 1 := by rw [crcShift, h 0 n.succ_pos, if_neg Bool.false_ne_true]
    have hlow : ∀ i < n, (a >>> 1).getLsbD i = false := fun i hi => by
      rw [BitVec.getLsbD_ushiftRight]
      exact h (1 + i) (by omega)
    rw [crcShifts_succ, hshift, ih hlow, Nat.add_comm, BitVec.shiftRight_add]

/-- The accumulator's low byte cancels itself, and the high byte moves down. -/
theorem crcByte_low_byte (a : Acc) : crcByte a (a.extractLsb' 0 8) = a >>> 8 := by
  have hlow : ∀ i < 8, (a ^^^ (a.extractLsb' 0 8).setWidth 16).getLsbD i = false := fun i hi => by
    have hi' : i < 16 := by omega
    simp [hi, hi']
  have hhigh : (a ^^^ (a.extractLsb' 0 8).setWidth 16) >>> 8 = a >>> 8 := by
    apply BitVec.eq_of_getLsbD_eq
    intro i _
    simp
  rw [crcByte_eq, crcShifts_of_low_bits_zero hlow, hhigh]

/-- The CRC field takes the accumulator it was made of to zero. -/
theorem crcFold_crcField (a : Acc) : crcFold a (crcField a) = 0x0000#16 := by
  have hhigh : a.extractLsb' 8 8 = (a >>> 8).extractLsb' 0 8 := by
    apply BitVec.eq_of_getLsbD_eq
    intro i hi
    simp
  have hout : a >>> 8 >>> 8 = 0x0000#16 := by
    rw [← BitVec.shiftRight_add]
    exact BitVec.ushiftRight_eq_zero (by decide)
  rw [crcField, crcFold_cons, crcByte_low_byte, hhigh, crcFold_cons, crcByte_low_byte, crcFold_nil, hout]

/-- A sealed sequence has CRC zero (R78). -/
theorem crc16_sealData (d : List Byte) : crc16 (sealData d) = 0x0000#16 := by
  rw [sealData, crc16_append, crcFold_crcField]

/-- Six sealed bytes are a valid window (R74, R78). -/
theorem validWindow_sealData {d : List Byte} (h : d.length = 6) : validWindow (sealData d) = true := by
  rw [validWindow, crc16_sealData]
  simp [sealData, crcField, h]

end Sys2Proof.Machine
end

section
/-! PROOFS. Fields and packet words by their bytes: each is that of some bytes, which it gives back (R53, R66, R113). -/

namespace Sys2Proof.Machine

theorem inSigned24_signedField (b0 b1 b2 : Byte) : inSigned24 (signedField b0 b1 b2) = true := by
  have h := inSigned24_sextOut (le_refl 24) (b0 ++ b1 ++ b2)
  rwa [sextOut, BitVec.toInt_signExtend_of_le (le_refl 24)] at h

/-- The bytes of a field are read back as they are. -/
@[simp] theorem fieldBytes_signedField (b0 b1 b2 : Byte) : fieldBytes (signedField b0 b1 b2) = [b0, b1, b2] := by
  have h0 : (b0 ++ b1 ++ b2 : Field24).extractLsb' 16 8 = b0 := by
    rw [BitVec.extractLsb'_append_eq_of_le (by decide)]
    exact BitVec.extractLsb'_append_eq_left
  have h1 : (b0 ++ b1 ++ b2 : Field24).extractLsb' 8 8 = b1 := by
    rw [BitVec.extractLsb'_append_eq_of_le (by decide)]
    exact BitVec.extractLsb'_append_eq_right
  have h2 : (b0 ++ b1 ++ b2 : Field24).extractLsb' 0 8 = b2 := BitVec.extractLsb'_append_eq_right
  rw [fieldBytes, signedField, BitVec.ofInt_toInt, h0, h1, h2]

/-- Every integer of the signed 24-bit range is that of three bytes. -/
theorem exists_signedField {v : Int} (h : inSigned24 v = true) : ∃ b0 b1 b2, v = signedField b0 b1 b2 := by
  simp only [inSigned24, Bool.and_eq_true, decide_eq_true_iff] at h
  obtain ⟨hlo, hhi⟩ := h
  have hv : (BitVec.ofInt 24 v).toInt = v := BitVec.toInt_ofInt_eq_self (by decide) hlo (by omega)
  refine ⟨(BitVec.ofInt 24 v).extractLsb' 16 8, (BitVec.ofInt 24 v).extractLsb' 8 8,
    (BitVec.ofInt 24 v).extractLsb' 0 8, ?_⟩
  rw [signedField, BitVec.extractLsb'_append_extractLsb'_eq_extractLsb' (by decide),
    BitVec.extractLsb'_append_extractLsb'_eq_extractLsb' (by decide), BitVec.extractLsb'_eq_self, hv]

/-- The integer of three bytes by arithmetic alone (R113). -/
theorem signedField_eq_arith24 (b0 b1 b2 : Byte) : signedField b0 b1 b2 = arith24 b0 b1 b2 := by
  have h0 := b0.isLt
  have h1 := b1.isLt
  have h2 := b2.isLt
  rw [signedField, BitVec.toInt_eq_toNat_cond, field_toNat]
  simp only [arith24]
  split <;> omega

/-- With `OUT_W ≥ 24` the decoded primary integer is that of bytes 0 to 2 (R105). -/
theorem decPri_pktOfBytes {outW : Nat} (h : 24 ≤ outW) (b0 b1 b2 b3 b4 b5 b6 b7 : Byte) :
    decPri outW (pktOfBytes b0 b1 b2 b3 b4 b5 b6 b7) = signedField b0 b1 b2 := by
  rw [decPri, ext24_k0_pktOfBytes, sextOut, BitVec.toInt_signExtend_of_le h, signedField]

/-- With `OUT_W ≥ 24` the decoded secondary integer is that of bytes 3 to 5 (R106). -/
theorem decSec_pktOfBytes {outW : Nat} (h : 24 ≤ outW) (b0 b1 b2 b3 b4 b5 b6 b7 : Byte) :
    decSec outW (pktOfBytes b0 b1 b2 b3 b4 b5 b6 b7) = signedField b3 b4 b5 := by
  rw [decSec, ext24_k3_pktOfBytes, sextOut, BitVec.toInt_signExtend_of_le h, signedField]

/-- Every packet word is that of eight bytes (R53). -/
theorem exists_pktOfBytes (w : Packet) : ∃ b0 b1 b2 b3 b4 b5 b6 b7, w = pktOfBytes b0 b1 b2 b3 b4 b5 b6 b7 := by
  refine ⟨pktByte w 0, pktByte w 1, pktByte w 2, pktByte w 3, pktByte w 4, pktByte w 5, pktByte w 6, pktByte w 7, ?_⟩
  have hjoin (start len : Nat) :
      w.extractLsb' (start + 8) len ++ w.extractLsb' start 8 = w.extractLsb' start (len + 8) :=
    BitVec.extractLsb'_append_extractLsb'_eq_extractLsb' rfl
  have hall : w.extractLsb' 0 64 = w := BitVec.extractLsb'_eq_self
  simp only [pktOfBytes, pktByte]
  rw [hjoin 48, hjoin 40, hjoin 32, hjoin 24, hjoin 16, hjoin 8, hjoin 0, hall]

/-- The bytes of `PACKET` on the integers of six bytes: the six, and the CRC field they have (R66). -/
theorem packetBytes_signedField (b0 b1 b2 b3 b4 b5 : Byte) :
    packetBytes (signedField b0 b1 b2) (signedField b3 b4 b5) = sealData [b0, b1, b2, b3, b4, b5] := by
  rw [packetBytes, fieldBytes_signedField, fieldBytes_signedField]
  rfl

end Sys2Proof.Machine
end

section
/-! PROOFS. The operand formats of the call sites: which bytes each reads, and as what. An equivalence per format holds
both directions of the round trip. -/

namespace Sys2Proof

open Machine

theorem oneByte_eq_ok_iff (f : Byte → Instr) (bs : List Byte) (i : Instr) :
    oneByte f bs = .ok i ↔ ∃ b, bs = [b] ∧ i = f b := by
  match bs with
  | [] | _ :: _ :: _ => simp [oneByte]
  | [_] => simp [oneByte, eq_comm]

theorem noBytes_eq_ok_iff (j : Instr) (bs : List Byte) (i : Instr) :
    noBytes j bs = .ok i ↔ bs = [] ∧ i = j := by
  match bs with
  | [] => simp [noBytes, eq_comm]
  | _ :: _ => simp [noBytes]

theorem eightBytes_pktBytes (f : Packet → Instr) (w : Packet) : eightBytes f (pktBytes w) = .ok (f w) := by
  obtain ⟨b0, b1, b2, b3, b4, b5, b6, b7, rfl⟩ := exists_pktOfBytes w
  rw [pktByte_pktOfBytes]
  rfl

theorem eightBytes_eq_ok_iff (f : Packet → Instr) (bs : List Byte) (i : Instr) :
    eightBytes f bs = .ok i ↔ ∃ w, bs = pktBytes w ∧ i = f w := by
  constructor
  · intro h
    unfold eightBytes at h
    split at h
    · cases h
      exact ⟨_, (pktByte_pktOfBytes ..).symm, rfl⟩
    · cases h
  · rintro ⟨w, rfl, rfl⟩
    exact eightBytes_pktBytes f w

theorem decodeExt24_eq_ok_iff (bs : List Byte) (i : Instr) :
    decodeExt24 bs = .ok i ↔ ∃ k w, bs = BitVec.ofNat 8 (fieldOffset k) :: pktBytes w ∧ i = .ext24 k w := by
  constructor
  · intro h
    unfold decodeExt24 at h
    split at h
    · cases h
    · split at h
      next hk =>
        obtain ⟨w, rfl, rfl⟩ := (eightBytes_eq_ok_iff _ _ _).1 h
        exact ⟨.k0, w, by rw [hk]; rfl, rfl⟩
      next =>
        split at h
        next hk =>
          obtain ⟨w, rfl, rfl⟩ := (eightBytes_eq_ok_iff _ _ _).1 h
          exact ⟨.k3, w, by rw [hk]; rfl, rfl⟩
        next => cases h
  · rintro ⟨k, w, rfl, rfl⟩
    cases k with
    | k0 => exact eightBytes_pktBytes (.ext24 .k0) w
    | k3 => exact eightBytes_pktBytes (.ext24 .k3) w

theorem decodeSample_eq_ok_iff (bs : List Byte) (i : Instr) :
    decodeSample bs = .ok i ↔
      ∃ p q, inSigned24 p = true ∧ inSigned24 q = true ∧ bs = fieldBytes p ++ fieldBytes q ∧ i = .sample p q := by
  constructor
  · intro h
    unfold decodeSample at h
    split at h
    · cases h
      exact ⟨_, _, inSigned24_signedField .., inSigned24_signedField .., by simp, rfl⟩
    · cases h
  · rintro ⟨p, q, hp, hq, rfl, rfl⟩
    obtain ⟨b0, b1, b2, rfl⟩ := exists_signedField hp
    obtain ⟨b3, b4, b5, rfl⟩ := exists_signedField hq
    simp [decodeSample]

theorem decodePacket_eq_ok_iff (bs : List Byte) (i : Instr) :
    decodePacket bs = .ok i ↔
      ∃ p q, inSigned24 p = true ∧ inSigned24 q = true ∧ bs = packetBytes p q ∧ i = .packet p q := by
  constructor
  · intro h
    unfold decodePacket at h
    split at h
    · split at h
      next hcrc =>
        cases h
        refine ⟨_, _, inSigned24_signedField .., inSigned24_signedField .., ?_, rfl⟩
        rw [packetBytes_signedField, sealData, hcrc]
        rfl
      next => cases h
    · cases h
  · rintro ⟨p, q, hp, hq, rfl, rfl⟩
    obtain ⟨b0, b1, b2, rfl⟩ := exists_signedField hp
    obtain ⟨b3, b4, b5, rfl⟩ := exists_signedField hq
    rw [packetBytes_signedField]
    exact if_pos rfl

/-- A `SEL` word holds one of four operations. -/
theorem decodeSel_cases (w : SelWord) :
    decodeSel w = .accept ∨ decodeSel w = .drop ∨ decodeSel w = .report ∨ decodeSel w = .wait := by
  revert w
  decide

/-- What the port answers is the event of some `EV` word. -/
theorem decodePort_eq_ok {bs : List Byte} {i : Instr} (h : decodePort bs = .ok i) : ∃ w, i = decodeEv w := by
  unfold decodePort at h
  split at h
  · split at h
    · cases h
      exact ⟨_, rfl⟩
    · cases h
  · cases h

/-- What the select site answers is the step of some `SEL` word. -/
theorem decodeSelect_eq_ok {bs : List Byte} {i : Instr} (h : decodeSelect bs = .ok i) : ∃ w, i = decodeSel w := by
  unfold decodeSelect at h
  split at h
  · split at h
    · cases h
      exact ⟨_, rfl⟩
    · cases h
  · cases h

/-- The decoder reads at its site what the encoder wrote. -/
theorem decode_encode {i : Instr} (h : i.wellFormed = true) : decode (siteOf i) (encode i) = .ok i := by
  cases i with
  | reset | tick | noEvent => exact decode_port_evBytes _
  | push b => exact (decode_port_evBytes _).trans (congrArg Decoded.ok (decodeEv_pushWord b))
  | accept | drop | report | wait => rfl
  | crcCheck w | decPri w | decSec w => exact eightBytes_pktBytes _ w
  | ext24 k w => exact (decodeExt24_eq_ok_iff _ _).2 ⟨k, w, rfl, rfl⟩
  | sample p q =>
    obtain ⟨hp, hq⟩ := (Bool.and_eq_true_iff).1 h
    exact (decodeSample_eq_ok_iff _ _).2 ⟨p, q, hp, hq, rfl, rfl⟩
  | packet p q =>
    obtain ⟨hp, hq⟩ := (Bool.and_eq_true_iff).1 h
    exact (decodePacket_eq_ok_iff _ _).2 ⟨p, q, hp, hq, rfl, rfl⟩
  | crcInit | crcXorb _ | crcShift | crcByte _ | crc16 _ | cntInc | drain | append _ => rfl

/-- What a call site answers is well formed, of that site, and encodes to the bytes it was read from. -/
theorem encode_of_decodeCall {f : Callee} {bs : List Byte} {i : Instr} (h : decodeCall f bs = .ok i) :
    i.wellFormed = true ∧ siteOf i = .call f ∧ encode i = bs := by
  cases f with
  | crcCheck | decPri | decSec =>
    obtain ⟨w, rfl, rfl⟩ := (eightBytes_eq_ok_iff _ _ _).1 h
    exact ⟨rfl, rfl, rfl⟩
  | ext24 =>
    obtain ⟨k, w, rfl, rfl⟩ := (decodeExt24_eq_ok_iff _ _).1 h
    exact ⟨rfl, rfl, rfl⟩
  | sample =>
    obtain ⟨p, q, hp, hq, rfl, rfl⟩ := (decodeSample_eq_ok_iff _ _).1 h
    exact ⟨(Bool.and_eq_true_iff).2 ⟨hp, hq⟩, rfl, rfl⟩
  | packet =>
    obtain ⟨p, q, hp, hq, rfl, rfl⟩ := (decodePacket_eq_ok_iff _ _).1 h
    exact ⟨(Bool.and_eq_true_iff).2 ⟨hp, hq⟩, rfl, rfl⟩
  | crcXorb | crcByte =>
    obtain ⟨b, rfl, rfl⟩ := (oneByte_eq_ok_iff _ _ _).1 h
    exact ⟨rfl, rfl, rfl⟩
  | crcInit | crcShift | cntInc | drain =>
    obtain ⟨rfl, rfl⟩ := (noBytes_eq_ok_iff _ _ _).1 h
    exact ⟨rfl, rfl, rfl⟩
  | crc16 | append =>
    cases h
    exact ⟨rfl, rfl, rfl⟩

end Sys2Proof
end

section
/-! PROOFS. The select word (R58): its bits are the flags, it selects exactly the enabled internal step, and a step that
is not enabled refuses (log entry 9). -/

namespace Sys2Proof.Machine

/-- The bits of `SEL` are the flags. -/
theorem selWord_bits (s : State) :
    (selWord s).getLsbD 2 = s.tpend ∧ (selWord s).getLsbD 1 = have8 s ∧ (selWord s).getLsbD 0 = valid s := by
  rw [selWord]
  generalize s.tpend = p, have8 s = h, valid s = v
  revert p h v
  decide

/-- `VALID` implies `HAVE8` (R21). -/
theorem have8_of_valid {s : State} (hv : valid s = true) : have8 s = true := by
  by_contra h8
  rw [Bool.not_eq_true, have8_eq_false_iff] at h8
  rw [valid_of_lt s h8] at hv
  exact Bool.false_ne_true hv

/-- A word with bit 0 and without bit 1 would have `VALID` without `HAVE8`: it does not occur (R58). -/
theorem selWord_ne_of_bits {w : SelWord} (h1 : w.getLsbD 1 = false) (h0 : w.getLsbD 0 = true) (s : State) :
    selWord s ≠ w := by
  rintro rfl
  obtain ⟨-, hhave8, hvalid⟩ := selWord_bits s
  have h8 : have8 s = true := have8_of_valid (hvalid.symm.trans h0)
  exact Bool.false_ne_true (h1.symm.trans (hhave8.trans h8))

/-- `SEL` selects by `LEN`, the CRC of the first 8 bytes and `TPEND` (R58, R86). -/
theorem selected_eq_of_buf (s : State) :
    selected s = if 8 ≤ s.buf.length then (if crc16 (s.buf.take 8) = 0x0000#16 then .accept else .drop)
      else if s.tpend = true then .report else .wait := by
  rw [selected_eq]
  by_cases h8 : 8 ≤ s.buf.length
  · simp [h8, valid_of_ge s h8]
  · simp [h8]

/-- `VALID` is the test of the window, where there is one (R21). -/
theorem valid_of_window {s : State} {w : Packet} (h : window s = some w) : valid s = pktValid w := by
  rw [valid, h]

/-- `ACCEPT` is enabled on a valid window (R88). -/
theorem enabled_accept_iff (s : State) :
    enabled .accept s = true ↔ ∃ w, window s = some w ∧ pktValid w = true := by
  rcases hw : window s with _ | w
  · simp [enabled, valid, hw]
  · simp [enabled, valid_of_window hw, length_ge_of_window hw]

/-- `DROP` is enabled on an invalid window (R89). -/
theorem enabled_drop_iff (s : State) :
    enabled .drop s = true ↔ ∃ w, window s = some w ∧ pktValid w = false := by
  rcases hw : window s with _ | w
  · have hlt := (window_eq_none_iff s).1 hw
    simp [enabled, hlt]
  · simp [enabled, valid_of_window hw, length_ge_of_window hw]

/-- `REPORT` is enabled with a report pending and fewer than 8 bytes held (R120). -/
theorem enabled_report_iff (s : State) : enabled .report s = true ↔ s.tpend = true ∧ s.buf.length < 8 := by
  simp [enabled]

/-- An internal step that answers a next state is enabled. -/
theorem enabled_of_exec {i : Instr} {s t : State} (hi : i = .accept ∨ i = .drop ∨ i = .report)
    (hx : exec i s = .next t) : enabled i s = true := by
  rcases hi with rfl | rfl | rfl
  · obtain ⟨w, hw, hv, -⟩ := (execAccept_eq_next_iff s t).1 hx
    exact (enabled_accept_iff s).2 ⟨w, hw, hv⟩
  · obtain ⟨w, hw, hv, -⟩ := (execDrop_eq_next_iff s t).1 hx
    exact (enabled_drop_iff s).2 ⟨w, hw, hv⟩
  · obtain ⟨hp, hl, -⟩ := (execReport_eq_next_iff s t).1 hx
    exact (enabled_report_iff s).2 ⟨hp, hl⟩

/-- `SEL` selects `ACCEPT`, `DROP` or `REPORT` exactly where it is enabled (R58). -/
theorem enabled_iff_selected {i : Instr} (hi : i = .accept ∨ i = .drop ∨ i = .report) (s : State) :
    enabled i s = true ↔ selected s = i := by
  constructor
  · intro he
    rcases enabled_cases i s he with rfl | ⟨b, rfl, -⟩ | rfl | hsel
    · simp at hi
    · simp at hi
    · simp at hi
    · exact hsel.symm
  · rintro rfl
    rcases selected_wait_or_enabled s with hw | he
    · simp [hw] at hi
    · exact he

theorem exec_accept_of_not_enabled {s : State} (h : enabled .accept s = false) :
    exec .accept s = .refused (.notEnabled "ACCEPT") := by
  rcases hw : window s with _ | w
  · simp [exec, execAccept, hw]
  · have hv : pktValid w ≠ true := fun hv => by simp [(enabled_accept_iff s).2 ⟨w, hw, hv⟩] at h
    simp [exec, execAccept, hw, hv]

theorem exec_drop_of_not_enabled {s : State} (h : enabled .drop s = false) :
    exec .drop s = .refused (.notEnabled "DROP") := by
  rcases hw : window s with _ | w
  · simp [exec, execDrop, hw]
  · have hv : pktValid w ≠ false := fun hv => by simp [(enabled_drop_iff s).2 ⟨w, hw, hv⟩] at h
    simp [exec, execDrop, hw, hv]

theorem exec_report_of_not_enabled {s : State} (h : enabled .report s = false) :
    exec .report s = .refused (.notEnabled "REPORT") :=
  if_neg (Bool.eq_false_iff.1 h)

theorem exec_wait_of_not_quiescent {s : State} (h : quiescent s = false) :
    exec .wait s = .refused (.notEnabled "WAIT") :=
  if_neg (Bool.eq_false_iff.1 h)

/-- Every state has a next one (R125). -/
theorem exists_step (s : State) : ∃ t, step s = .next t := by
  obtain ⟨hi, -⟩ := fetch_cases s
  rcases enabled_or_idle_of_fetched hi with he | hidle
  · exact exec_of_enabled _ _ he
  · exact ⟨_, hidle⟩

end Sys2Proof.Machine
end

section
/-! PROOFS. A cycle and a run to quiescence are runs of enabled transitions (R59, R64). -/

namespace Sys2Proof.Machine

/-- A run of one label. -/
theorem runLabels_singleton {i : Instr} {s t : State} (he : enabled i s = true) (hx : exec i s = .next t) :
    runLabels [i] s = some t :=
  (runLabels_cons_iff _ _ _ _).2 ⟨t, he, hx, rfl⟩

/-- A run of one label or of none. -/
theorem exists_run_of_guard {c : Bool} {i : Instr} {s : State} (he : c = true → enabled i s = true) :
    ∃ t, (if c then exec i s else .next s) = .next t ∧ runLabels (if c then [i] else []) s = some t := by
  cases c with
  | false => exact ⟨s, rfl, rfl⟩
  | true =>
    obtain ⟨t, hx⟩ := exec_of_enabled i s (he rfl)
    exact ⟨t, hx, runLabels_singleton (he rfl) hx⟩

/-- The block's turn is a run: of the selected step, or, where it is `WAIT`, of no label. -/
theorem runLabels_of_exec_selected {s t : State} (hx : exec (selected s) s = .next t) :
    runLabels (if quiescent s then [] else [selected s]) s = some t := by
  rcases selected_wait_or_enabled s with hw | he
  · rw [hw] at hx
    obtain ⟨hq, rfl⟩ := (execWait_eq_next_iff s t).1 hx
    rw [if_pos hq, runLabels_nil]
  · have hq : ¬ quiescent s = true := fun hq => by
      rw [of_decide_eq_true hq] at he
      simp [enabled] at he
    rw [if_neg hq]
    exact runLabels_singleton he hx

/-- The block's turn keeps `READY` (R22): no internal step lengthens the buffer. -/
theorem ready_of_exec_selected {s t : State} (hx : exec (selected s) s = .next t) (hr : ready s = true) :
    ready t = true := by
  rcases selected_cases s with hsel | hsel | hsel | hsel <;> rw [hsel] at hx
  · exact ready_of_framerStep (framerStep_of_exec (.inl rfl) hx) hr
  · exact ready_of_framerStep (framerStep_of_exec (.inr rfl) hx) hr
  · obtain ⟨-, -, rfl⟩ := (execReport_eq_next_iff s t).1 hx
    exact hr
  · obtain ⟨-, rfl⟩ := (execWait_eq_next_iff s t).1 hx
    exact hr

/-- A cycle without `rst` is the block's turn, the `PUSH` and the `TICK`, in that order (R59). -/
theorem cycle_eq_next {w : EvWord} {s u v t : State} (hr : Ev.rst w = false)
    (hblock : exec (selected s) s = .next u)
    (hpush : (if Ev.inValid w && ready s then exec (.push (Ev.inData w)) u else .next u) = .next v)
    (htick : (if Ev.tick w then exec .tick v else .next v) = .next t) : cycle w s = .next t := by
  rw [cycle, hr, if_neg Bool.false_ne_true, andThen_eq_next_iff]
  exact ⟨u, hblock, (andThen_eq_next_iff _ _ _).2 ⟨v, hpush, htick⟩⟩

/-- The framer's steps are a run of `ACCEPT` and `DROP` (R86). -/
theorem exists_run_framerSteps (n : Nat) (s : State) :
    ∃ ls : List Instr, (∀ i ∈ ls, i = .accept ∨ i = .drop) ∧ runLabels ls s = some (framerSteps n s) := by
  induction n generalizing s with
  | zero => exact ⟨[], by simp, rfl⟩
  | succ n ih =>
    rcases hf : framerStep s with _ | t
    · exact ⟨[], by simp, by simp [framerSteps, hf]⟩
    · obtain ⟨i, hi, hx⟩ : ∃ i, (i = .accept ∨ i = .drop) ∧ exec i s = .next t := by
        rcases framerStep_eq_some s t hf with hx | hx
        · exact ⟨.accept, .inl rfl, hx⟩
        · exact ⟨.drop, .inr rfl, hx⟩
      have he : enabled i s = true := enabled_of_exec (hi.imp_right .inl) hx
      obtain ⟨ls, hls, hrun⟩ := ih t
      refine ⟨i :: ls, List.forall_mem_cons.2 ⟨hi, hls⟩, (runLabels_cons_iff _ _ _ _).2 ⟨t, he, hx, ?_⟩⟩
      rw [hrun]
      simp [framerSteps, hf]

/-- A run to quiescence is the drain and then the pending report, if one is (R64). -/
theorem settle_eq (s : State) :
    settle s = if enabled .report (framerSteps (len s) s) then reportOp (framerSteps (len s) s)
      else framerSteps (len s) s := rfl

/-- After the drain only a report can be left to do, and after the report nothing (R91, R121). -/
theorem quiescent_settle (s : State) : quiescent (settle s) = true := by
  have hlt : (framerSteps (len s) s).buf.length < 8 := framerSteps_lt _ s le_rfl
  rw [quiescent_eq_true_iff, settle_eq]
  split
  next => exact ⟨hlt, rfl⟩
  next he =>
    rw [enabled_report_iff, and_iff_left hlt, Bool.not_eq_true] at he
    exact ⟨hlt, he⟩

/-- A run to quiescence is a run of enabled internal steps (R64). -/
theorem exists_run_settle (s : State) :
    ∃ ls : List Instr, (∀ i ∈ ls, i = .accept ∨ i = .drop ∨ i = .report) ∧ runLabels ls s = some (settle s) := by
  obtain ⟨ls, hls, hrun⟩ := exists_run_framerSteps (len s) s
  have hframer : ∀ i ∈ ls, i = .accept ∨ i = .drop ∨ i = .report := fun i hi => (hls i hi).imp_right .inl
  rw [settle_eq]
  split
  next he =>
    obtain ⟨-, hx⟩ := exec_report_of_enabled he
    refine ⟨ls ++ [.report], ?_, (runLabels_append_iff _ _ _ _).2 ⟨_, hrun, runLabels_singleton he hx⟩⟩
    exact List.forall_mem_append.2 ⟨hframer, by simp⟩
  next => exact ⟨ls, hframer, hrun⟩

end Sys2Proof.Machine
end

section
/-! PROOFS. The obligations of 30_encoding.md. -/

namespace Sys2Proof.Machine

/-- Settles O7: by the format of each operation. -/
theorem decodeOfEncodeIsTheInstruction : Obligations.DecodeOfEncodeIsTheInstruction := fun _ h => decode_encode h

/-- Settles O8: at the port and the select site by the operations their words hold, at a call site by the formats. -/
theorem decodedIsWellFormedAndReencodes : Obligations.DecodedIsWellFormedAndReencodes := by
  intro site bs i h
  cases site with
  | port =>
    obtain ⟨w, rfl⟩ := decodePort_eq_ok h
    rcases decodeEv_cases w with hi | ⟨b, hi⟩ | hi | hi <;> rw [hi] <;> exact ⟨rfl, rfl, nofun⟩
  | select =>
    obtain ⟨w, rfl⟩ := decodeSelect_eq_ok h
    rcases decodeSel_cases w with hi | hi | hi | hi <;> rw [hi] <;> exact ⟨rfl, rfl, nofun⟩
  | call f =>
    obtain ⟨hwf, hsite, hbytes⟩ := encode_of_decodeCall h
    exact ⟨hwf, hsite, fun _ _ => hbytes⟩

/-- Settles O39: the two fields are those of their bytes, and the number three bytes stand for. -/
theorem decodedIntegersAreSigned24 : Obligations.DecodedIntegersAreSigned24 := by
  intro b0 b1 b2 b3 b4 b5 b6 b7 s hwf
  have hw := outW_ge_of_wf hwf
  rw [← signedField_eq_arith24, ← signedField_eq_arith24, ← decPri_pktOfBytes hw, ← decSec_pktOfBytes hw]
  exact ⟨rfl, rfl⟩

/-- Settles O43: the integers are those of six bytes, and the packet is the six sealed. -/
theorem packetBuildsAValidWindow : Obligations.PacketBuildsAValidWindow := by
  intro p q s hp hp' hq hq'
  obtain ⟨b0, b1, b2, rfl⟩ := exists_signedField (v := p) (by simp [inSigned24, hp, hp'])
  obtain ⟨b3, b4, b5, rfl⟩ := exists_signedField (v := q) (by simp [inSigned24, hq, hq'])
  refine ⟨sealData [b0, b1, b2, b3, b4, b5], ?_, ?_, ?_, rfl⟩
  · rw [← packetBytes_signedField]
    rfl
  · exact validWindow_sealData rfl
  · rw [signedField_eq_arith24, signedField_eq_arith24]
    rfl

/-- Settles O9: the words of the table evaluate, and `PACKET` decodes from the bytes it encodes to. -/
theorem wordsOfTheSpecDecode : Obligations.WordsOfTheSpecDecode := by
  have hbytes : packetBytes (-100) (-1) = [0xFF#8, 0xFF#8, 0x9C#8, 0xFF#8, 0xFF#8, 0xFF#8, 0x1F#8, 0xD0#8] := by
    decide +kernel
  have hpacket : decode (.call .packet) (packetBytes (-100) (-1)) = .ok (.packet (-100) (-1)) :=
    decode_encode (i := .packet (-100) (-1)) (by decide)
  rw [hbytes] at hpacket
  refine ⟨?_, ?_, ?_, ?_, ?_, ?_, ?_, ?_, ?_, hpacket⟩ <;> decide

/-- Settles O5: the masks of R56 read bit by bit, and `PUSH` where `READY = 0`. -/
theorem evWordDecodesByItsBits : Obligations.EvWordDecodesByItsBits := by
  refine ⟨fun w => ?_, fun w => ?_, fun b _ hr => exec_push_of_not_ready b hr, fun _ => rfl⟩
  · rw [← Ev.inData_eq_setWidth]
    exact decodeEv_eq w
  · change (evRest w).map decodeEv = if !Ev.rst w && Ev.inValid w && Ev.tick w then [Instr.tick] else []
    rw [evRest_eq]
    split
    next h =>
      simp only [Bool.and_eq_true, Bool.not_eq_true'] at h
      obtain ⟨⟨hr, -⟩, ht⟩ := h
      rw [List.map_singleton, decodeEv_withoutPush hr ht]
    next => rfl

/-- Settles O6: the bits are the flags, and what they select is what is enabled. -/
theorem selWordSelectsOneStep : Obligations.SelWordSelectsOneStep := fun s =>
  ⟨selWord_bits s, ⟨selWord_ne_of_bits rfl rfl s, selWord_ne_of_bits rfl rfl s⟩, selected_eq_of_buf s,
    fun _ hi => enabled_iff_selected (by simpa using hi) s, decide_eq_true_iff⟩

/-- Settles O25: each meaning tests what enables it, and every state has a next one. -/
theorem internalStepsRefuseWhereNotEnabled : Obligations.InternalStepsRefuseWhereNotEnabled := by
  refine fun s => ⟨exec_accept_of_not_enabled, exec_drop_of_not_enabled, exec_report_of_not_enabled,
    exec_wait_of_not_quiescent, fun e he => ?_⟩
  obtain ⟨t, ht⟩ := exists_step s
  cases ht.symm.trans he

/-- Settles O57: the block's turn keeps `READY`, so that the three parts of a cycle are enabled one after another. -/
theorem cycleIsARunOfTransitions : Obligations.CycleIsARunOfTransitions := by
  intro w s
  change ∃ t, cycle w s = .next t ∧ (Ev.rst w = true → _) ∧ (Ev.rst w = false → _)
  by_cases hr : Ev.rst w = true
  · exact ⟨resetOp s, if_pos hr, fun _ => rfl, fun h => absurd (hr.symm.trans h) (by decide)⟩
  · rw [Bool.not_eq_true] at hr
    obtain ⟨u, hu⟩ := exec_selected s
    obtain ⟨v, hv, hpush⟩ := exists_run_of_guard (c := Ev.inValid w && ready s) (i := .push (Ev.inData w)) (s := u)
      fun hc => ready_of_exec_selected hu (Bool.and_eq_true_iff.1 hc).2
    obtain ⟨t, ht, htick⟩ := exists_run_of_guard (c := Ev.tick w) (i := .tick) (s := v) fun _ => rfl
    refine ⟨t, cycle_eq_next hr hu hv ht, fun h => absurd (hr.symm.trans h) (by decide), fun _ => ⟨?_, fun hw => ?_⟩⟩
    · rw [← Ev.inData_eq_setWidth, runLabels_append_iff]
      exact ⟨v, (runLabels_append_iff _ _ _ _).2 ⟨u, runLabels_of_exec_selected hu, hpush⟩, htick⟩
    · have htaken : exec .tick v = .next t := (if_pos hw).symm.trans ht
      cases htaken
      rfl

/-- Settles O59: the drain, and then the pending report. -/
theorem settlingEndsQuiescent : Obligations.SettlingEndsQuiescent := fun s => ⟨quiescent_settle s, exists_run_settle s⟩

end Sys2Proof.Machine
end

section
/-! PROOFS. The accumulator under `CRC.SHIFT` and `CRC.BYTE` (R70, R71, R76, R77): the shift bit by bit, that it is
linear over XOR and a bijection, and what that gives for bytes and for sequences. -/

namespace Sys2Proof.Machine

/-- A bit of the shifted accumulator: the next higher bit, and the constant's where the low bit was 1 (R70). -/
theorem getLsbD_crcShift (a : Acc) (i : Nat) :
    (crcShift a).getLsbD i = (a.getLsbD (i + 1) ^^ (a.getLsbD 0 && (0xA001#16).getLsbD i)) := by
  rw [crcShift, Config.crcPoly, apply_ite (fun r : Acc => r.getLsbD i), BitVec.getLsbD_xor, BitVec.getLsbD_ushiftRight,
    Nat.add_comm]
  cases a.getLsbD 0 <;> simp

/-- The low bit that is lost comes back as the highest, since the constant has that bit (R70). -/
theorem getLsbD_crcShift_high (a : Acc) : (crcShift a).getLsbD 15 = a.getLsbD 0 := by
  have htop : a.getLsbD 16 = false := BitVec.getLsbD_of_ge a 16 (le_refl 16)
  have hpoly : (0xA001#16).getLsbD 15 = true := rfl
  rw [getLsbD_crcShift, htop, hpoly, Bool.and_true, Bool.false_xor]

/-- The shift undone, each bit but the lowest (R76). -/
theorem getLsbD_succ_eq (a : Acc) (i : Nat) :
    a.getLsbD (i + 1) = ((crcShift a).getLsbD i ^^ (a.getLsbD 0 && (0xA001#16).getLsbD i)) := by
  rw [getLsbD_crcShift, Bool.xor_assoc, Bool.xor_self, Bool.xor_false]

theorem extractLsb'_eq_crcShift_undone (a : Acc) :
    a.extractLsb' 1 15 =
      (crcShift a ^^^ (if a.getLsbD 0 then 0xA001#16 else 0x0000#16)).extractLsb' 0 15 := by
  apply BitVec.eq_of_getLsbD_eq
  intro i _
  rw [BitVec.getLsbD_extractLsb', BitVec.getLsbD_extractLsb', BitVec.getLsbD_xor, Nat.zero_add, Nat.add_comm,
    getLsbD_succ_eq]
  cases a.getLsbD 0 <;> simp

theorem crcShift_xor (a a' : Acc) : crcShift (a ^^^ a') = crcShift a ^^^ crcShift a' := by
  apply BitVec.eq_of_getLsbD_eq
  intro i _
  simp only [getLsbD_crcShift, BitVec.getLsbD_xor, Bool.and_xor_distrib_right]
  rw [Bool.xor_assoc, Bool.xor_assoc, Bool.xor_left_comm (a'.getLsbD (i + 1))]

theorem crcShift_injective : Function.Injective crcShift := by
  intro a a' h
  have hlow : a.getLsbD 0 = a'.getLsbD 0 := by rw [← getLsbD_crcShift_high, h, getLsbD_crcShift_high]
  apply BitVec.eq_of_getLsbD_eq
  intro i _
  cases i with
  | zero => exact hlow
  | succ i => rw [getLsbD_succ_eq, getLsbD_succ_eq a', h, hlow]

theorem finite_bitVec (w : Nat) : Finite (BitVec w) := Finite.of_equiv _ BitVec.equivFin.toEquiv.symm

theorem crcShift_bijective : Function.Bijective crcShift :=
  have := finite_bitVec 16
  Finite.injective_iff_bijective.1 crcShift_injective

theorem crcShifts_eq_iterate (n : Nat) (a : Acc) : crcShifts n a = crcShift^[n] a := by
  induction n generalizing a with
  | zero => rfl
  | succ n ih => rw [crcShifts_succ, ih, Function.iterate_succ_apply]

theorem crcShifts_bijective (n : Nat) : Function.Bijective (crcShifts n) := by
  rw [funext (crcShifts_eq_iterate n)]
  exact crcShift_bijective.iterate n

theorem crcShifts_xor (n : Nat) (a a' : Acc) : crcShifts n (a ^^^ a') = crcShifts n a ^^^ crcShifts n a' := by
  induction n generalizing a a' with
  | zero => rfl
  | succ n ih => rw [crcShifts_succ, crcShift_xor, ih, crcShifts_succ, crcShifts_succ]

theorem crcShifts_add (m n : Nat) (a : Acc) : crcShifts (m + n) a = crcShifts m (crcShifts n a) := by
  rw [crcShifts_eq_iterate, crcShifts_eq_iterate, crcShifts_eq_iterate, Function.iterate_add_apply]

theorem crcShifts_eq_zero_iff (n : Nat) (a : Acc) : crcShifts n a = 0#16 ↔ a = 0#16 := by
  have hzero : crcShifts n 0#16 = 0#16 := by
    rw [crcShifts_of_low_bits_zero fun _ _ => BitVec.getLsbD_zero, BitVec.zero_ushiftRight]
  exact ⟨fun h => (crcShifts_bijective n).injective (h.trans hzero.symm), fun h => h ▸ hzero⟩

/-- `CRC.BYTE` is linear in the accumulator and the byte together (R76). -/
theorem crcByte_xor (a a' : Acc) (b b' : Byte) :
    crcByte (a ^^^ a') (b ^^^ b') = crcByte a b ^^^ crcByte a' b' := by
  have hsplit : a ^^^ a' ^^^ (b ^^^ b').setWidth 16 = (a ^^^ b.setWidth 16) ^^^ (a' ^^^ b'.setWidth 16) := by
    rw [BitVec.setWidth_xor]
    ac_rfl
  rw [crcByte_eq, hsplit, crcShifts_xor, ← crcByte_eq, ← crcByte_eq]

theorem crcByte_bijective (b : Byte) : Function.Bijective fun a => crcByte a b := by
  have hxor : Function.Involutive fun a : Acc => a ^^^ b.setWidth 16 := fun a =>
    (BitVec.xor_assoc ..).trans (by rw [BitVec.xor_self, BitVec.xor_zero])
  exact (crcShifts_bijective 8).comp hxor.bijective

/-- Two bytes that leave the same accumulator behind are the same. -/
theorem crcByte_byte_injective (a : Acc) : Function.Injective (crcByte a) := by
  intro b b' h
  have hxor : a ^^^ b.setWidth 16 = a ^^^ b'.setWidth 16 := (crcShifts_bijective 8).injective h
  have hwide : b.setWidth 16 = b'.setWidth 16 := (BitVec.xor_right_inj a).1 hxor
  simpa using congrArg (BitVec.setWidth 8) hwide

/-- The table form (R77): the accumulator's own low byte only moves the high byte down; the rest is the table's. -/
theorem crcByte_eq_table (a : Acc) (b : Byte) :
    crcByte a b = (a >>> 8) ^^^ crcByte 0#16 (a.extractLsb' 0 8 ^^^ b) := by
  rw [← crcByte_low_byte, ← crcByte_xor, BitVec.xor_zero, ← BitVec.xor_assoc, BitVec.xor_self, BitVec.zero_xor]

theorem crcFold_injective (s : List Byte) : Function.Injective fun a => crcFold a s := by
  induction s with
  | nil => exact Function.injective_id
  | cons b s ih => exact ih.comp (crcByte_bijective b).injective

/-- The fold is linear in the accumulator and the sequence together (R76). -/
theorem crcFold_zipWith_xor (a a' : Acc) {s e : List Byte} (h : s.length = e.length) :
    crcFold (a ^^^ a') (List.zipWith (· ^^^ ·) s e) = crcFold a s ^^^ crcFold a' e := by
  induction s generalizing a a' e with
  | nil =>
    obtain rfl := List.length_eq_zero_iff.1 h.symm
    rfl
  | cons b s ih =>
    cases e with
    | nil => cases h
    | cons b' e =>
      rw [List.zipWith_cons_cons, crcFold_cons, crcByte_xor, ih _ _ (Nat.succ.inj h), crcFold_cons, crcFold_cons]

theorem zipWith_xor_zeros (s : List Byte) : List.zipWith (· ^^^ ·) s (List.replicate s.length 0#8) = s := by
  induction s with
  | nil => rfl
  | cons b s ih =>
    rw [List.length_cons, List.replicate_succ, List.zipWith_cons_cons, ih, BitVec.xor_zero]

/-- What the initial value adds to the checksum depends on the length only (R76). -/
theorem crc16_eq_crc0_xor (s : List Byte) :
    crc16 s = crc0 s ^^^ crcFold 0xFFFF#16 (List.replicate s.length 0#8) := by
  rw [crc0, ← crcFold_zipWith_xor 0#16 0xFFFF#16 List.length_replicate.symm, zipWith_xor_zeros, BitVec.zero_xor]
  rfl

end Sys2Proof.Machine
end

section
/-! PROOFS. Two bytes as one 16-bit pattern, and with it the valid windows (R79, R80, R81): exactly one pair of bytes
behind six makes the checksum zero. -/

namespace Sys2Proof.Machine

/-- Two bytes are 16 shifts of the accumulator XORed with both, the second byte above the first: the first 8 shifts
only move the second byte down to where `CRC.XORB` expects it. -/
theorem crcFold_pair (a : Acc) (x y : Byte) : crcFold a [x, y] = crcShifts 16 (a ^^^ (y ++ x)) := by
  have hmove : crcShifts 8 (y ++ 0#8) = y.setWidth 16 := by
    rw [crcShifts_of_low_bits_zero fun i hi => by rw [BitVec.getLsbD_append, if_pos hi, BitVec.getLsbD_zero]]
    apply BitVec.eq_of_getLsbD_eq
    intro i hi
    rw [BitVec.getLsbD_ushiftRight, BitVec.getLsbD_append]
    simp [hi]
  have hsplit : a ^^^ (y ++ x) = (a ^^^ x.setWidth 16) ^^^ (y ++ 0#8) := by
    apply BitVec.eq_of_getLsbD_eq
    intro i hi
    rw [BitVec.getLsbD_xor, BitVec.getLsbD_xor, BitVec.getLsbD_xor, BitVec.getLsbD_append, BitVec.getLsbD_append]
    by_cases h8 : i < 8
    · simp [h8, hi]
    · simp [h8, BitVec.getLsbD_of_ge x i (Nat.not_lt.1 h8)]
  rw [hsplit, crcShifts_add 8 8, crcShifts_xor 8, hmove]
  rfl

/-- Exactly one pair of bytes takes an accumulator to zero: its own, low byte first (R79). -/
theorem crcFold_pair_eq_zero_iff (a : Acc) (x y : Byte) :
    crcFold a [x, y] = 0x0000#16 ↔ x = a.extractLsb' 0 8 ∧ y = a.extractLsb' 8 8 := by
  rw [crcFold_pair, crcShifts_eq_zero_iff, BitVec.xor_eq_zero_iff]
  constructor
  · rintro rfl
    exact ⟨BitVec.extractLsb'_append_eq_right.symm, BitVec.extractLsb'_append_eq_left.symm⟩
  · rintro ⟨rfl, rfl⟩
    have hjoin : a.extractLsb' 8 8 ++ a.extractLsb' 0 8 = a.extractLsb' 0 16 :=
      BitVec.extractLsb'_append_extractLsb'_eq_extractLsb' (start₁ := 0) rfl
    rw [hjoin, BitVec.extractLsb'_eq_self]

theorem crc16_pair_eq_zero_iff (d : List Byte) (x y : Byte) :
    crc16 (d ++ [x, y]) = 0x0000#16 ↔ x = (crc16 d).extractLsb' 0 8 ∧ y = (crc16 d).extractLsb' 8 8 := by
  rw [crc16_append, crcFold_pair_eq_zero_iff]

/-- A byte changed in a sequence changes its checksum (R81). -/
theorem crc16_replace_injective (x y : List Byte) : Function.Injective fun b => crc16 (x ++ b :: y) := by
  intro b b' h
  simp only [crc16_append, crcFold_cons] at h
  exact crcByte_byte_injective _ (crcFold_injective y h)

theorem validWindow_eq_true_iff (w : List Byte) : validWindow w = true ↔ w.length = 8 ∧ crc16 w = 0x0000#16 := by
  simp [validWindow]

theorem validWindow_eq_false_of_crc16_ne {w : List Byte} (h : crc16 w ≠ 0x0000#16) : validWindow w = false :=
  Bool.eq_false_iff.2 fun hv => h ((validWindow_eq_true_iff w).1 hv).2

/-- The packet word of six data bytes and their CRC field (R55). -/
def sealedPacket (d : Fin 6 → Byte) : Packet :=
  pktOfBytes (d 0) (d 1) (d 2) (d 3) (d 4) (d 5)
    ((crc16 [d 0, d 1, d 2, d 3, d 4, d 5]).extractLsb' 0 8) ((crc16 [d 0, d 1, d 2, d 3, d 4, d 5]).extractLsb' 8 8)

theorem pktBytes_sealedPacket (d : Fin 6 → Byte) :
    pktBytes (sealedPacket d) = sealData [d 0, d 1, d 2, d 3, d 4, d 5] := pktByte_pktOfBytes ..

theorem pktValid_sealedPacket (d : Fin 6 → Byte) : pktValid (sealedPacket d) = true := by
  rw [pktValid, pktBytes_sealedPacket, crc16_sealData]
  rfl

theorem sealedPacket_injective : Function.Injective sealedPacket := by
  intro d d' h
  have hbytes : sealData [d 0, d 1, d 2, d 3, d 4, d 5] = sealData [d' 0, d' 1, d' 2, d' 3, d' 4, d' 5] := by
    rw [← pktBytes_sealedPacket, h, pktBytes_sealedPacket]
  have hdata : List.ofFn d = List.ofFn d' := List.append_inj_left hbytes rfl
  exact List.ofFn_injective hdata

/-- A valid packet word is that of its six data bytes (R79). -/
theorem exists_sealedPacket {p : Packet} (h : pktValid p = true) : ∃ d, sealedPacket d = p := by
  obtain ⟨b0, b1, b2, b3, b4, b5, b6, b7, rfl⟩ := exists_pktOfBytes p
  rw [pktValid_pktOfBytes, decide_eq_true_iff] at h
  obtain ⟨rfl, rfl⟩ := (crc16_pair_eq_zero_iff [b0, b1, b2, b3, b4, b5] b6 b7).1 h
  exact ⟨![b0, b1, b2, b3, b4, b5], rfl⟩

/-- The valid packet words are as many as the values of their six data bytes (R80). -/
theorem card_valid_packets : Nat.card { p : Packet // pktValid p = true } = Nat.card (Fin 6 → Byte) := by
  symm
  refine Nat.card_eq_of_bijective (fun d => ⟨sealedPacket d, pktValid_sealedPacket d⟩) ⟨fun d d' h => ?_, fun p => ?_⟩
  · exact sealedPacket_injective (congrArg Subtype.val h)
  · obtain ⟨d, hd⟩ := exists_sealedPacket p.2
    exact ⟨d, Subtype.ext hd⟩

theorem card_bitVec (w : Nat) : Nat.card (BitVec w) = 2 ^ w := by
  rw [Nat.card_congr BitVec.equivFin.toEquiv, Nat.card_fin]

end Sys2Proof.Machine
end

section
/-! PROOFS. Operations of the CRC family one after another (R71, R73): what they leave in `ACC`. -/

namespace Sys2Proof.Machine

theorem exec_crcInit (s : State) : exec .crcInit s = .next { s with acc := 0xFFFF#16 } := rfl

theorem exec_crcXorb (b : Byte) (s : State) :
    exec (.crcXorb b) s = .next { s with acc := s.acc ^^^ b.setWidth 16 } := rfl

theorem exec_crcShift (s : State) : exec .crcShift s = .next { s with acc := crcShift s.acc } := rfl

theorem exec_crcByte (b : Byte) (s : State) : exec (.crcByte b) s = .next { s with acc := crcByte s.acc b } := rfl

theorem exec_crc16 (bs : List Byte) (s : State) : exec (.crc16 bs) s = .next { s with acc := crc16 bs } := rfl

/-- An operation that has a next state hands it to the rest. -/
theorem execSeq_cons_of_next {i : Instr} {s t : State} (is : List Instr) (h : exec i s = .next t) :
    execSeq (i :: is) s = execSeq is t := by
  rw [execSeq, h]
  rfl

theorem execSeq_replicate_crcShift (n : Nat) (s : State) :
    execSeq (List.replicate n .crcShift) s = .next { s with acc := crcShifts n s.acc } := by
  induction n generalizing s with
  | zero => rfl
  | succ n ih =>
    rw [List.replicate_succ, execSeq_cons_of_next _ (exec_crcShift s), ih, crcShifts_succ]

theorem execSeq_map_crcByte (bs : List Byte) (s : State) :
    execSeq (bs.map .crcByte) s = .next { s with acc := crcFold s.acc bs } := by
  induction bs generalizing s with
  | nil => rfl
  | cons b bs ih =>
    rw [List.map_cons, execSeq_cons_of_next _ (exec_crcByte b s), ih, crcFold_cons]

end Sys2Proof.Machine
end

section
/-! PROOFS. The obligations of 40_crc.md. -/

namespace Sys2Proof.Machine

/-- Settles O10: the meaning of `CRC.INIT` writes the constant. -/
theorem crcInitWritesAllOnes : Obligations.CrcInitWritesAllOnes := exec_crcInit

/-- Settles O11: the byte is as wide as the low half, and 0 in the high half. -/
theorem crcXorbTouchesTheLowByte : Obligations.CrcXorbTouchesTheLowByte := by
  refine fun b s => ⟨s.acc ^^^ b.setWidth 16, exec_crcXorb b s, rfl, ?_, ?_, fun hb => ?_⟩
  · rw [BitVec.extractLsb'_xor, ← BitVec.setWidth_eq_extractLsb' (by decide),
      ← BitVec.setWidth_eq_extractLsb' (by decide), BitVec.setWidth_setWidth_of_le b (by decide), BitVec.setWidth_eq]
  · apply BitVec.eq_of_getLsbD_eq
    intro i hi
    simp
  · rw [hb]
    exact BitVec.xor_zero

/-- Settles O12, by the bits of the shifted accumulator. -/
theorem crcShiftTestsTheLowBitFirst : Obligations.CrcShiftTestsTheLowBitFirst := by
  refine ⟨fun s => ⟨crcShift s.acc, exec_crcShift s, rfl, ?_, fun i _ => ?_⟩, crcShift_bijective⟩
  · exact getLsbD_crcShift_high s.acc
  · exact getLsbD_crcShift s.acc i

/-- Settles O13, by the run of the eight shifts. -/
theorem crcByteIsXorbThenEightShifts : Obligations.CrcByteIsXorbThenEightShifts := by
  refine fun b s => ⟨?_, ?_⟩
  · rw [exec_crcByte, crcByte_eq, crcShifts_eq_iterate]
  · rw [exec_crcByte, crcByte_eq, execSeq_cons_of_next _ (exec_crcXorb b s), execSeq_replicate_crcShift]

/-- Settles O14, by the run of the bytes from the initial value. -/
theorem crc16IsInitThenBytes : Obligations.Crc16IsInitThenBytes := by
  refine ⟨fun bs s => ⟨crc16 bs, exec_crc16 bs s, ?_, rfl⟩, crc16_nil, by decide +kernel, by decide +kernel,
    by decide +kernel⟩
  rw [execSeq_cons_of_next _ (exec_crcInit s), execSeq_map_crcByte, crc16_eq_fold]

/-- Settles O16: the laws of the shift, of the byte and of the fold. -/
theorem crcIsLinearAndInvertible : Obligations.CrcIsLinearAndInvertible := by
  refine ⟨⟨crcShift_xor, rfl⟩, ⟨crcShift_bijective, fun a => ⟨?_, extractLsb'_eq_crcShift_undone a⟩⟩,
    ⟨crcByte_xor, by decide, crcByte_bijective⟩, crc16_eq_crc0_xor, fun s e => crcFold_zipWith_xor 0#16 0#16,
    by decide +kernel⟩
  exact (getLsbD_crcShift_high a).symm

/-- Settles O17: the general form is linearity's; the entries of the table evaluate. -/
theorem crcTableFormAgrees : Obligations.CrcTableFormAgrees := by
  refine ⟨fun a b => ?_, by decide⟩
  rw [BitVec.setWidth_eq_extractLsb' (by decide)]
  exact crcByte_eq_table a b

/-- Settles O18: the two bytes are the CRC field. -/
theorem crcResidueIsZero : Obligations.CrcResidueIsZero := crc16_sealData

/-- Settles O19: the pair is unique behind any sequence. -/
theorem crcFieldIsUnique : Obligations.CrcFieldIsUnique := fun d x y _ => crc16_pair_eq_zero_iff d x y

/-- Settles O20: one byte by injectivity, the last two by uniqueness. -/
theorem oneByteErrorsAreDetected : Obligations.OneByteErrorsAreDetected := by
  refine ⟨fun x y b b' _ hne hv => validWindow_eq_false_of_crc16_ne fun hcrc' => hne ?_,
    fun d x y x' y' _ hne hv => validWindow_eq_false_of_crc16_ne fun hcrc' => hne ?_⟩
  · obtain ⟨-, hcrc⟩ := (validWindow_eq_true_iff _).1 hv
    exact crc16_replace_injective x y (hcrc.trans hcrc'.symm)
  · obtain ⟨-, hcrc⟩ := (validWindow_eq_true_iff _).1 hv
    obtain ⟨rfl, rfl⟩ := (crc16_pair_eq_zero_iff d x y).1 hcrc
    obtain ⟨rfl, rfl⟩ := (crc16_pair_eq_zero_iff d x' y').1 hcrc'
    rfl

/-- Settles O21: one window for each value of the six data bytes, 256^6 of them. -/
theorem validWindowsAreTwoToTheFortyEight : Obligations.ValidWindowsAreTwoToTheFortyEight := by
  rw [Obligations.ValidWindowsAreTwoToTheFortyEight, card_valid_packets, Nat.card_fun, card_bitVec, Nat.card_fin,
    ← pow_mul]

end Sys2Proof.Machine
end

section
/-! PROOFS. The framing of a byte sequence, window by window (R86, R98): the framer labels that drain it, how framing
continues behind samples and drops already made, and what garbage and valid windows give. -/

namespace Sys2Proof.Machine

/-- The framer labels that drain a byte sequence, in order (R86, R92). `runLabels_framerLabels` ties them to runs. -/
def framerLabels (s : List Byte) : List Instr :=
  if 8 ≤ s.length then
    if crc16 (s.take 8) = 0x0000#16 then .accept :: framerLabels (s.drop 8)
    else .drop :: framerLabels (s.drop 1)
  else []
termination_by s.length
decreasing_by all_goals rw [List.length_drop]; omega

theorem framerLabels_of_lt {s : List Byte} (h : s.length < 8) : framerLabels s = [] := by
  rw [framerLabels, if_neg (Nat.not_le.2 h)]

theorem framerLabels_of_valid {s : List Byte} (h8 : 8 ≤ s.length) (hc : crc16 (s.take 8) = 0x0000#16) :
    framerLabels s = .accept :: framerLabels (s.drop 8) := by
  rw [framerLabels, if_pos h8, if_pos hc]

theorem framerLabels_of_invalid {s : List Byte} (h8 : 8 ≤ s.length) (hc : crc16 (s.take 8) ≠ 0x0000#16) :
    framerLabels s = .drop :: framerLabels (s.drop 1) := by
  rw [framerLabels, if_pos h8, if_neg hc]

/-- A framing that goes on after the samples `ps` and the drops `ds`. -/
def Framing.after (ps : List (Int × Int)) (ds : List Dropped) (f : Framing) : Framing :=
  { samples := ps ++ f.samples, dropped := ds ++ f.dropped, rest := f.rest }

@[simp] theorem Framing.after_samples (ps : List (Int × Int)) (ds : List Dropped) (f : Framing) :
    (f.after ps ds).samples = ps ++ f.samples := rfl
@[simp] theorem Framing.after_dropped (ps : List (Int × Int)) (ds : List Dropped) (f : Framing) :
    (f.after ps ds).dropped = ds ++ f.dropped := rfl
@[simp] theorem Framing.after_rest (ps : List (Int × Int)) (ds : List Dropped) (f : Framing) :
    (f.after ps ds).rest = f.rest := rfl
@[simp] theorem Framing.after_nil (f : Framing) : f.after [] [] = f := rfl
@[simp] theorem Framing.after_after (ps ps' : List (Int × Int)) (ds ds' : List Dropped) (f : Framing) :
    (f.after ps' ds').after ps ds = f.after (ps ++ ps') (ds ++ ds') := by
  simp [Framing.after]

/-- What comes first is determined by the whole and what goes on. -/
theorem Framing.after_inj {ps ps' : List (Int × Int)} {ds ds' : List Dropped} {f : Framing}
    (h : f.after ps ds = f.after ps' ds') : ps = ps' ∧ ds = ds' := by
  simpa [Framing.after] using h

/-- A valid window first: its sample, and on behind its 8 bytes (R88). -/
theorem frameFrom_of_valid (k : Nat) {s : List Byte} (h8 : 8 ≤ s.length) (hc : crc16 (s.take 8) = 0x0000#16) :
    frameFrom k s = (frameFrom (k + 8) (s.drop 8)).after [windowSample (s.take 8)] [] := by
  rw [frameFrom_of_ge k s h8, if_pos hc]
  rfl

/-- An invalid window first: its first byte dropped, and on behind that (R89). -/
theorem frameFrom_of_invalid (k : Nat) {s : List Byte} (h8 : 8 ≤ s.length) (hc : crc16 (s.take 8) ≠ 0x0000#16) :
    frameFrom k s = (frameFrom (k + 1) (s.drop 1)).after [] ((s.take 1).map (Dropped.mk k)) := by
  rw [frameFrom_of_ge k s h8, if_neg hc]
  rfl

/-- The samples do not depend on where a sequence stands. -/
theorem frameFrom_samples (k : Nat) (s : List Byte) : (frameFrom k s).samples = (frame s).samples := by
  rw [frameFrom_eq_shift]

/-- The remainder does not depend on where a sequence stands. -/
theorem frameFrom_rest (k : Nat) (s : List Byte) : (frameFrom k s).rest = (frame s).rest := by
  rw [frameFrom_eq_shift]

/-- Framing leaves fewer than 8 bytes, and no more than there were (R92). -/
theorem length_frameFrom_rest (k : Nat) (s : List Byte) :
    (frameFrom k s).rest.length ≤ 7 ∧ (frameFrom k s).rest.length ≤ s.length := by
  induction s using framerLabels.induct generalizing k with
  | case1 s h8 hc ih =>
    obtain ⟨h7, hle⟩ := ih (k + 8)
    rw [frameFrom_of_valid k h8 hc]
    exact ⟨h7, hle.trans (by simp)⟩
  | case2 s h8 hc ih =>
    obtain ⟨h7, hle⟩ := ih (k + 1)
    rw [frameFrom_of_invalid k h8 hc]
    exact ⟨h7, hle.trans (by simp)⟩
  | case3 s h8 =>
    rw [frameFrom_of_lt k s (by omega)]
    exact ⟨Nat.lt_succ_iff.1 (Nat.not_le.1 h8), le_rfl⟩

/-- Framing continues: `y` behind `x` is framed as `y` behind the remainder of `x`, which stands where it ends together
with `x` (R98). -/
theorem frameFrom_append {j k : Nat} {x : List Byte} (y : List Byte)
    (hj : j + (frameFrom k x).rest.length = k + x.length) :
    frameFrom k (x ++ y) =
      (frameFrom j ((frameFrom k x).rest ++ y)).after (frameFrom k x).samples (frameFrom k x).dropped := by
  induction x using framerLabels.induct generalizing k with
  | case1 x h8 hc ih =>
    have hwin : (x ++ y).take 8 = x.take 8 := List.take_append_of_le_length h8
    rw [frameFrom_of_valid k h8 hc] at hj ⊢
    rw [frameFrom_of_valid k (h8.trans (by simp)) (by rwa [hwin]), hwin, List.drop_append_of_le_length h8,
      ih (hj.trans (by simp; omega))]
    simp
  | case2 x h8 hc ih =>
    have hwin : (x ++ y).take 8 = x.take 8 := List.take_append_of_le_length h8
    have h1 : 1 ≤ x.length := le_trans (by decide) h8
    rw [frameFrom_of_invalid k h8 hc] at hj ⊢
    rw [frameFrom_of_invalid k (h8.trans (by simp)) (by rwa [hwin]), List.take_append_of_le_length h1,
      List.drop_append_of_le_length h1, ih (hj.trans (by simp; omega))]
    simp
  | case3 x h8 =>
    rw [frameFrom_of_lt k x (Nat.not_le.1 h8)] at hj ⊢
    obtain rfl : j = k := Nat.add_right_cancel hj
    rfl

/-- None of the windows that begin in the bytes `g`, with `p` behind them, is valid (R99). -/
def IsGarbage (g p : List Byte) : Prop := ∀ i, i < g.length → validWindow (((g ++ p).drop i).take 8) = false

theorem isGarbage_nil (p : List Byte) : IsGarbage [] p := fun _ h => absurd h (Nat.not_lt_zero _)

theorem isGarbage_cons_iff (b : Byte) (g p : List Byte) :
    IsGarbage (b :: g) p ↔ validWindow ((b :: (g ++ p)).take 8) = false ∧ IsGarbage g p := by
  constructor
  · exact fun h => ⟨h 0 (by simp), fun i hi => h (i + 1) (by simpa using hi)⟩
  · rintro ⟨h0, h⟩ (_ | i) hi
    · exact h0
    · exact h i (by simpa using hi)

/-- The first window of bytes behind which 8 or more stand, when it is not valid. -/
theorem crc16_ne_of_not_validWindow {s r : List Byte} (h8 : 8 ≤ s.length) (h : validWindow (s.take 8) = false) :
    crc16 ((s ++ r).take 8) ≠ 0x0000#16 := by
  rw [List.take_append_of_le_length h8]
  intro hc
  have hv : validWindow (s.take 8) = true := (validWindow_eq_true_iff _).2 ⟨by simpa using h8, hc⟩
  rw [hv] at h
  exact absurd h (by decide)

/-- Garbage is dropped byte by byte, the valid window behind it accepted: the labels (R99). -/
theorem framerLabels_garbage {g p : List Byte} (r : List Byte) (hp : validWindow p = true) (hg : IsGarbage g p) :
    framerLabels (g ++ p ++ r) = List.replicate g.length .drop ++ .accept :: framerLabels r := by
  obtain ⟨hlen, hcrc⟩ := (validWindow_eq_true_iff p).1 hp
  induction g with
  | nil =>
    have hwin : (p ++ r).take 8 = p := List.take_left' hlen
    have htail : (p ++ r).drop 8 = r := List.drop_left' hlen
    rw [List.nil_append, framerLabels_of_valid (by simp [hlen]) (by rwa [hwin]), htail]
    rfl
  | cons b g ih =>
    obtain ⟨hb, hg'⟩ := (isGarbage_cons_iff b g p).1 hg
    have hcb := crc16_ne_of_not_validWindow (r := r) (by simp [hlen]) hb
    rw [List.cons_append, framerLabels_of_invalid (by simp [hlen]; omega) hcb]
    exact congrArg (Instr.drop :: ·) (ih hg')

/-- Garbage is dropped byte by byte, the valid window behind it accepted: the framing (R99). -/
theorem frameFrom_garbage (k : Nat) {g p : List Byte} (r : List Byte) (hp : validWindow p = true)
    (hg : IsGarbage g p) :
    frameFrom k (g ++ p ++ r) =
      (frameFrom (k + (g.length + 8)) r).after [windowSample p] (g.mapIdx fun i => Dropped.mk (k + i)) := by
  obtain ⟨hlen, hcrc⟩ := (validWindow_eq_true_iff p).1 hp
  induction g generalizing k with
  | nil =>
    have hwin : (p ++ r).take 8 = p := List.take_left' hlen
    have htail : (p ++ r).drop 8 = r := List.drop_left' hlen
    rw [List.nil_append, frameFrom_of_valid k (by simp [hlen]) (by rwa [hwin]), hwin, htail]
    simp
  | cons b g ih =>
    obtain ⟨hb, hg'⟩ := (isGarbage_cons_iff b g p).1 hg
    have hcb := crc16_ne_of_not_validWindow (r := r) (by simp [hlen]) hb
    rw [List.cons_append, frameFrom_of_invalid k (by simp [hlen]; omega) hcb]
    have hrest := ih (k + 1) hg'
    have hpos : k + 1 + (g.length + 8) = k + ((b :: g).length + 8) := by simp; omega
    simp only [List.cons_append, List.drop_one, List.tail_cons, List.take_succ_cons, List.take_zero, hpos] at hrest ⊢
    rw [hrest]
    simp [List.mapIdx_cons, Nat.add_assoc, Nat.add_comm 1]

/-- Valid windows with no gap: one `ACCEPT` each (R101). -/
theorem framerLabels_flatten {ws : List (List Byte)} (h : ∀ w ∈ ws, validWindow w = true) :
    framerLabels ws.flatten = List.replicate ws.length .accept := by
  induction ws with
  | nil => exact framerLabels_of_lt (by decide)
  | cons w ws ih =>
    obtain ⟨hw, hws⟩ := List.forall_mem_cons.1 h
    have hfirst := framerLabels_garbage ws.flatten hw (isGarbage_nil w)
    rw [List.nil_append, ih hws] at hfirst
    exact hfirst

/-- Valid windows with no gap: their samples, no drop and no remainder (R101). -/
theorem frameFrom_flatten (k : Nat) {ws : List (List Byte)} (h : ∀ w ∈ ws, validWindow w = true) :
    frameFrom k ws.flatten = { samples := ws.map windowSample, dropped := [], rest := [] } := by
  induction ws generalizing k with
  | nil => exact frameFrom_of_lt k [] (by decide)
  | cons w ws ih =>
    obtain ⟨hw, hws⟩ := List.forall_mem_cons.1 h
    have hfirst := frameFrom_garbage k ws.flatten hw (isGarbage_nil w)
    rw [List.nil_append, ih _ hws] at hfirst
    exact hfirst

end Sys2Proof.Machine
end

section
/-! PROOFS. The transitions as the framing of the pushed bytes sees them (R86, R98): what `ACCEPT` and `DROP` do to bytes
and samples, and what a run makes of `BUF` and the bytes pushed behind it. -/

namespace Sys2Proof.Machine

/-- With `OUT_W ≥ 24` the integers decoded from the window are those of the first 8 bytes (R105, R106, R113). -/
theorem windowSample_of_window {s : State} {w : Packet} (hwf : s.cfg.wf = true) (hw : window s = some w) :
    (decPri s.cfg.outW w, decSec s.cfg.outW w) = windowSample (s.buf.take 8) := by
  obtain ⟨b0, b1, b2, b3, b4, b5, b6, b7, r, hbuf, rfl⟩ := leadingPkt_eq_some s.buf w hw
  have hout := outW_ge_of_wf hwf
  rw [decPri_pktOfBytes hout, decSec_pktOfBytes hout, signedField_eq_arith24, signedField_eq_arith24, hbuf]
  rfl

/-- The test of the window is that of the first 8 bytes (R74, R86). -/
theorem pktValid_window {s : State} {w : Packet} (hw : window s = some w) :
    pktValid w = true ↔ crc16 (s.buf.take 8) = 0x0000#16 := by
  rw [pktValid_leadingPkt s.buf w hw, beq_iff_eq]

/-- `ACCEPT` where 8 bytes with CRC zero stand first (R88). -/
theorem exec_accept_of_buf {s : State} (hwf : s.cfg.wf = true) (h8 : 8 ≤ s.buf.length)
    (hc : crc16 (s.buf.take 8) = 0x0000#16) :
    exec .accept s = .next { s with
      buf := s.buf.drop 8
      cnt := satInc s.cfg.cntMax s.cnt
      out := s.out ++ [.sample (windowSample (s.buf.take 8)).1 (windowSample (s.buf.take 8)).2]
      acc := Config.freeAcc s.fresh
      fresh := s.fresh + 1 } := by
  rcases hw : window s with _ | w
  · rw [window_eq_none_iff] at hw
    omega
  · rw [← windowSample_of_window hwf hw]
    exact (execAccept_eq_next_iff _ _).2 ⟨w, hw, (pktValid_window hw).2 hc, rfl⟩

/-- `DROP` where 8 bytes with another CRC stand first (R89). -/
theorem exec_drop_of_buf {s : State} (h8 : 8 ≤ s.buf.length) (hc : crc16 (s.buf.take 8) ≠ 0x0000#16) :
    exec .drop s = .next { s with
      buf := s.buf.drop 1
      acc := Config.freeAcc s.fresh
      fresh := s.fresh + 1 } := by
  rcases hw : window s with _ | w
  · rw [window_eq_none_iff] at hw
    omega
  · exact (execDrop_eq_next_iff _ _).2 ⟨w, hw, Bool.eq_false_iff.2 (mt (pktValid_window hw).1 hc), rfl⟩

theorem pushed_cons (i : Instr) (is : List Instr) : pushed (i :: is) = pushed [i] ++ pushed is :=
  pushed_append [i] is

/-- Whatever comes behind `BUF`, the window is that of the first 8 bytes (R34). -/
theorem window_of_stream {s : State} {w : Packet} {r x : List Byte} (hw : window s = some w) (hx : x = s.buf ++ r) :
    8 ≤ x.length ∧ x.take 8 = s.buf.take 8 ∧ (pktValid w = true ↔ crc16 (x.take 8) = 0x0000#16) := by
  have h8 := length_ge_of_window hw
  have hwin : x.take 8 = s.buf.take 8 := by rw [hx, List.take_append_of_le_length h8]
  exact ⟨h8.trans (by simp [hx]), hwin, by rw [hwin, pktValid_window hw]⟩

theorem isFramer_eq_false {i : Instr} (ha : i ≠ .accept) (hd : i ≠ .drop) : isFramer i = false := by
  simp [isFramer, ha, hd]

/-- Only framer labels consume. -/
theorem consumed_of_not_framer {i : Instr} (h : isFramer i = false) : consumed [i] = 0 := by
  cases i with
  | accept => cases h
  | drop => cases h
  | _ => rfl

/-- The head moves by what a label consumes (R30 item 2). -/
theorem nextHead_eq {i : Instr} (k : Nat) (hr : i ≠ .reset) : nextHead k i = k + consumed [i] := by
  cases i with
  | reset => exact absurd rfl hr
  | _ => rfl

/-- All that a transition but `RESET` can be and do to the samples and to the byte sequence `x` of `BUF`, what the label
pushes, and the bytes `r` still to come: `ACCEPT` of its valid window, `DROP` at its invalid one, or a label that leaves
the sequence as it is. -/
theorem exec_enabled_framing_cases {i : Instr} {s t : State} {r x : List Byte} (hwf : s.cfg.wf = true)
    (hi : i ≠ .reset) (he : enabled i s = true) (hx : exec i s = .next t) (hstream : x = s.buf ++ (pushed [i] ++ r)) :
    (i = .accept ∧ 8 ≤ x.length ∧ crc16 (x.take 8) = 0x0000#16 ∧ t.buf ++ r = x.drop 8 ∧
      samplesOf t.out = samplesOf s.out ++ [windowSample (x.take 8)]) ∨
    (i = .drop ∧ 8 ≤ x.length ∧ crc16 (x.take 8) ≠ 0x0000#16 ∧ t.buf ++ r = x.drop 1 ∧ s.buf.take 1 = x.take 1 ∧
      samplesOf t.out = samplesOf s.out) ∨
    (i ≠ .accept ∧ i ≠ .drop ∧ t.buf ++ r = x ∧ samplesOf t.out = samplesOf s.out) := by
  rcases exec_enabled_cases i s t he hx with
    ⟨rfl, -⟩ | ⟨b, rfl, -, rfl⟩ | ⟨rfl, rfl⟩ | ⟨rfl, w, hw, hv, rfl⟩ | ⟨rfl, w, hw, hv, rfl⟩ | ⟨rfl, -, -, rfl⟩
  · exact absurd rfl hi
  · exact .inr (.inr ⟨by simp, by simp, by simp [hstream, pushOf], rfl⟩)
  · exact .inr (.inr ⟨by simp, by simp, hstream.symm, rfl⟩)
  · have h8 := length_ge_of_window hw
    obtain ⟨hlen, hwin, hvalid⟩ := window_of_stream hw hstream
    refine .inl ⟨rfl, hlen, hvalid.1 hv, ?_, ?_⟩
    · rw [hstream, acceptOp_buf]
      exact (List.drop_append_of_le_length h8).symm
    · rw [hwin, ← windowSample_of_window hwf hw, acceptOp_out, samplesOf_append]
      rfl
  · have h1 : 1 ≤ s.buf.length := le_trans (by decide) (length_ge_of_window hw)
    obtain ⟨hlen, -, hvalid⟩ := window_of_stream hw hstream
    refine .inr (.inl ⟨rfl, hlen, mt hvalid.2 (Bool.eq_false_iff.1 hv), ?_, ?_, rfl⟩)
    · rw [hstream, dropOp_buf]
      exact (List.drop_append_of_le_length h1).symm
    · rw [hstream]
      exact (List.take_append_of_le_length h1).symm
  · refine .inr (.inr ⟨by simp, by simp, hstream.symm, ?_⟩)
    rw [reportOp_out, samplesOf_append]
    exact List.append_nil _

/-- The framer labels of a run are the first of those that frame `BUF` and the bytes pushed; what is left of them frames
the buffer it ends with. -/
theorem runLabels_framerLabels {ls : List Instr} {s t : State} (hwf : s.cfg.wf = true) (hr : Instr.reset ∉ ls)
    (h : runLabels ls s = some t) : framerLabels (s.buf ++ pushed ls) = ls.filter isFramer ++ framerLabels t.buf := by
  induction ls generalizing s with
  | nil =>
    cases h
    simp [pushed]
  | cons i is ih =>
    obtain ⟨hi, his⟩ := not_or.1 (mt List.mem_cons.2 hr)
    obtain ⟨u, he, hx, hu⟩ := (runLabels_cons_iff i is s t).1 h
    have hrest := ih (by rwa [exec_enabled_cfg he hx]) his hu
    rcases exec_enabled_framing_cases hwf (Ne.symm hi) he hx (congrArg (s.buf ++ ·) (pushed_cons i is)) with
      ⟨rfl, h8, hc, hbuf, -⟩ | ⟨rfl, h8, hc, hbuf, -, -⟩ | ⟨ha, hd, hbuf, -⟩
    · rw [framerLabels_of_valid h8 hc, ← hbuf, hrest]
      rfl
    · rw [framerLabels_of_invalid h8 hc, ← hbuf, hrest]
      rfl
    · rw [← hbuf, hrest, List.filter_cons_of_neg (by simp [isFramer_eq_false ha hd])]

/-- A run's samples and drops come first in the framing of `BUF` and the bytes pushed; the framing of the buffer it ends
with goes on from there (R98). -/
theorem runLabels_frameFrom {ls : List Instr} {s t : State} (k : Nat) (hwf : s.cfg.wf = true) (hr : Instr.reset ∉ ls)
    (h : runLabels ls s = some t) :
    ∃ ps, samplesOf t.out = samplesOf s.out ++ ps ∧
      frameFrom k (s.buf ++ pushed ls) = (frameFrom (k + consumed ls) t.buf).after ps (droppedIn k ls s) := by
  induction ls generalizing s k with
  | nil =>
    cases h
    exact ⟨[], by simp, by simp [pushed, droppedIn, consumed]⟩
  | cons i is ih =>
    obtain ⟨hi, his⟩ := not_or.1 (mt List.mem_cons.2 hr)
    obtain ⟨u, he, hx, hu⟩ := (runLabels_cons_iff i is s t).1 h
    obtain ⟨ps, hps, hframe⟩ := ih (nextHead k i) (by rwa [exec_enabled_cfg he hx]) his hu
    have hpos : nextHead k i + consumed is = k + consumed (i :: is) := by
      rw [nextHead_eq k (Ne.symm hi), consumed_cons i is, Nat.add_assoc]
    rw [hpos] at hframe
    rcases exec_enabled_framing_cases hwf (Ne.symm hi) he hx (congrArg (s.buf ++ ·) (pushed_cons i is)) with
      ⟨rfl, h8, hc, hbuf, hout⟩ | ⟨rfl, h8, hc, hbuf, hhead, hout⟩ | ⟨ha, hd, hbuf, hout⟩
    · refine ⟨_ :: ps, by rw [hps, hout, List.append_assoc]; rfl, ?_⟩
      rw [hbuf] at hframe
      rw [frameFrom_of_valid k h8 hc, droppedIn, hx]
      exact (congrArg _ hframe).trans (Framing.after_after _ _ _ _ _)
    · refine ⟨ps, by rw [hps, hout], ?_⟩
      rw [hbuf] at hframe
      rw [frameFrom_of_invalid k h8 hc, droppedIn, hx, hhead]
      exact (congrArg _ hframe).trans (Framing.after_after _ _ _ _ _)
    · refine ⟨ps, by rw [hps, hout], ?_⟩
      have hk : nextHead k i = k := by
        rw [nextHead_eq k (Ne.symm hi), consumed_of_not_framer (isFramer_eq_false ha hd), Nat.add_zero]
      rw [hbuf, hk] at hframe
      rw [droppedIn, hx, if_neg hd, hk, hframe]
      rfl

/-- A run that ends with fewer than 8 bytes has framed `BUF` and the bytes pushed (R98). -/
theorem frameFrom_of_run {ls : List Instr} {s t : State} (k : Nat) (hwf : s.cfg.wf = true) (hr : Instr.reset ∉ ls)
    (h : runLabels ls s = some t) (hlt : t.buf.length < 8) :
    samplesOf t.out = samplesOf s.out ++ (frameFrom k (s.buf ++ pushed ls)).samples ∧
      droppedIn k ls s = (frameFrom k (s.buf ++ pushed ls)).dropped ∧
      t.buf = (frameFrom k (s.buf ++ pushed ls)).rest := by
  obtain ⟨ps, hps, hframe⟩ := runLabels_frameFrom k hwf hr h
  rw [hframe, frameFrom_of_lt _ _ hlt]
  simp [hps]

end Sys2Proof.Machine
end

section
/-! PROOFS. What framer steps do besides framing: how many there can be (R91), what `DRAIN` counts (R92), and the room
`APPEND` makes (R93). -/

namespace Sys2Proof.Machine

/-- The buffer holds at least 8 bytes (R7), so that with fewer there is room. -/
theorem ready_of_lt {s : State} (hwf : s.cfg.wf = true) (h : s.buf.length < 8) : ready s = true := by
  rcases hcap : s.cfg.bufCap with _ | n
  · exact ready_of_unbounded hcap
  · have h8 : 8 ≤ n := by
      simp only [Config.Params.wf, hcap, Bool.and_eq_true, decide_eq_true_iff] at hwf
      exact hwf.1.1
    exact (ready_iff_of_bound hcap).2 (by omega)

theorem consumed_singleton_le (i : Instr) : consumed [i] ≤ 8 := by
  cases i with
  | accept => exact le_rfl
  | drop => exact (by decide : 1 ≤ 8)
  | _ => exact Nat.zero_le _

/-- A framer label consumes at most 8 bytes, every other label none (R35). -/
theorem consumed_le (ls : List Instr) : consumed ls ≤ 8 * (ls.filter isFramer).length := by
  induction ls with
  | nil => exact Nat.zero_le _
  | cons i is ih =>
    rw [consumed_cons i is]
    by_cases hi : isFramer i = true
    · have hle := consumed_singleton_le i
      rw [List.filter_cons_of_pos hi, List.length_cons]
      omega
    · rwa [List.filter_cons_of_neg hi, consumed_of_not_framer (Bool.eq_false_iff.2 hi), Nat.zero_add]

theorem consumed_filter_isFramer (ls : List Instr) : consumed (ls.filter isFramer) = consumed ls := by
  induction ls with
  | nil => rfl
  | cons i is ih =>
    rw [consumed_cons i is]
    by_cases hi : isFramer i = true
    · rw [List.filter_cons_of_pos hi, consumed_cons i, ih]
    · rw [List.filter_cons_of_neg hi, consumed_of_not_framer (Bool.eq_false_iff.2 hi), ih, Nat.zero_add]

theorem consumed_replicate_drop (n : Nat) : consumed (List.replicate n .drop) = n := by
  induction n with
  | zero => rfl
  | succ n ih => rw [List.replicate_succ, consumed, ih, Nat.add_comm]

theorem pushed_eq_nil {ls : List Instr} (h : ∀ b, Instr.push b ∉ ls) : pushed ls = [] := by
  refine List.filterMap_eq_nil_iff.2 fun i hi => ?_
  cases i with
  | push b => exact absurd hi (h b)
  | _ => rfl

/-- Every framer step needs 8 bytes and takes one at least, so that `n` bytes allow at most `n − 7` (R91). -/
theorem length_framer_le {ls : List Instr} {s t : State} (hp : ∀ b, Instr.push b ∉ ls)
    (h : runLabels ls s = some t) : (ls.filter isFramer).length ≤ s.buf.length - 7 := by
  induction ls generalizing s with
  | nil => exact Nat.zero_le _
  | cons i is ih =>
    obtain ⟨u, he, hx, hu⟩ := (runLabels_cons_iff i is s t).1 h
    have hrest := ih (fun b hb => hp b (List.mem_cons_of_mem i hb)) hu
    rcases exec_enabled_cases i s u he hx with
      ⟨rfl, rfl⟩ | ⟨b, rfl, -, -⟩ | ⟨rfl, rfl⟩ | ⟨rfl, w, hw, -, rfl⟩ | ⟨rfl, w, hw, -, rfl⟩ | ⟨rfl, -, -, rfl⟩
    · exact hrest.trans (by simp)
    · exact absurd List.mem_cons_self (hp b)
    · exact hrest
    · have h8 := length_ge_of_window hw
      rw [acceptOp_buf, List.length_drop] at hrest
      rw [List.filter_cons_of_pos rfl, List.length_cons]
      omega
    · have h8 := length_ge_of_window hw
      rw [dropOp_buf, List.length_drop] at hrest
      rw [List.filter_cons_of_pos rfl, List.length_cons]
      omega
    · exact hrest

/-- A run without `PUSH` and `RESET` shortens the buffer by what it consumes, 8 bytes a framer step at most (R91). -/
theorem length_buf_le {ls : List Instr} {s t : State} (hp : ∀ b, Instr.push b ∉ ls) (hr : Instr.reset ∉ ls)
    (h : runLabels ls s = some t) : s.buf.length ≤ t.buf.length + 8 * (ls.filter isFramer).length := by
  obtain ⟨hbuf, -⟩ := runLabels_buf hr h
  rw [pushed_eq_nil hp, List.append_nil] at hbuf
  have hconsumed := consumed_le ls
  rw [hbuf, List.length_drop]
  omega

/-- With fewer than 8 bytes held, a transition that is no `PUSH` and no `RESET` is a `TICK` or a `REPORT`, and touches
neither `BUF` nor `ACC` (R87, R96). -/
theorem exec_enabled_of_lt {i : Instr} {s t : State} (hlt : s.buf.length < 8) (hr : i ≠ .reset)
    (hp : ∀ b, i ≠ .push b) (he : enabled i s = true) (hx : exec i s = .next t) :
    (i = .tick ∨ i = .report) ∧ t.buf = s.buf ∧ t.acc = s.acc ∧ t.fresh = s.fresh := by
  rcases exec_enabled_cases i s t he hx with
    ⟨rfl, -⟩ | ⟨b, rfl, -, -⟩ | ⟨rfl, rfl⟩ | ⟨rfl, w, hw, -, -⟩ | ⟨rfl, w, hw, -, -⟩ | ⟨rfl, -, -, rfl⟩
  · exact absurd rfl hr
  · exact absurd rfl (hp b)
  · exact ⟨.inl rfl, rfl, rfl, rfl⟩
  · exact absurd (length_ge_of_window hw) (Nat.not_le.2 hlt)
  · exact absurd (length_ge_of_window hw) (Nat.not_le.2 hlt)
  · exact ⟨.inr rfl, rfl, rfl, rfl⟩

/-- Framer steps report nothing and count one packet for each `ACCEPT` (R88, R89). -/
theorem runLabels_framer_counts {ls : List Instr} {s t : State} (hls : ∀ i ∈ ls, i = .accept ∨ i = .drop)
    (h : runLabels ls s = some t) :
    reportsOf t.out = reportsOf s.out ∧ t.cnt = (satInc s.cfg.cntMax)^[accepts ls] s.cnt := by
  induction ls generalizing s with
  | nil =>
    cases h
    exact ⟨rfl, rfl⟩
  | cons i is ih =>
    obtain ⟨hi, his⟩ := List.forall_mem_cons.1 hls
    obtain ⟨u, -, hx, hu⟩ := (runLabels_cons_iff i is s t).1 h
    obtain ⟨hrep, hcnt⟩ := ih his hu
    rcases hi with rfl | rfl
    · obtain ⟨w, -, -, rfl⟩ := (execAccept_eq_next_iff s u).1 hx
      rw [hrep, hcnt, acceptOp_out, reportsOf_append, acceptOp_cnt, acceptOp_cfg, ← Function.iterate_succ_apply]
      exact ⟨List.append_nil _, by simp [accepts]⟩
    · obtain ⟨w, -, -, rfl⟩ := (execDrop_eq_next_iff s u).1 hx
      exact ⟨hrep, by simpa [accepts] using hcnt⟩

/-- Making room is taking some framer steps (R93). -/
theorem exists_makeRoom_eq_framerSteps (n : Nat) (s : State) : ∃ m, makeRoom n s = framerSteps m s := by
  induction n generalizing s with
  | zero => exact ⟨0, rfl⟩
  | succ n ih =>
    by_cases hr : ready s = true
    · exact ⟨0, by simp [makeRoom, hr, framerSteps]⟩
    · rcases hf : framerStep s with _ | t
      · exact ⟨0, by simp [makeRoom, hr, hf, framerSteps]⟩
      · obtain ⟨m, hm⟩ := ih t
        exact ⟨m + 1, by simp [makeRoom, hr, hf, framerSteps, hm]⟩

/-- With room there is none to make. -/
theorem makeRoom_of_ready (n : Nat) {s : State} (h : ready s = true) : makeRoom n s = s := by
  cases n with
  | zero => rfl
  | succ n => simp [makeRoom, h]

/-- As many framer steps as there are bytes make room (R91, R93). -/
theorem ready_makeRoom {n : Nat} {s : State} (hwf : s.cfg.wf = true) (hn : s.buf.length ≤ n) :
    ready (makeRoom n s) = true := by
  induction n generalizing s with
  | zero => exact ready_of_lt hwf (by rw [makeRoom]; omega)
  | succ n ih =>
    by_cases hr : ready s = true
    · rwa [makeRoom_of_ready _ hr]
    · rcases hf : framerStep s with _ | t
      · exact absurd (ready_of_lt hwf ((framerStep_eq_none_iff s).1 hf)) hr
      · obtain ⟨hlen, -, -, -, -, hcfg⟩ := framerStep_spec s t hf
        have ht := ih (s := t) (by rwa [hcfg]) (by omega)
        simpa [makeRoom, hr, hf] using ht

/-- One `PUSH` of `APPEND` where there is room (R93). -/
theorem pushMakingRoom_of_ready {s : State} (b : Byte) (h : ready s = true) :
    pushMakingRoom s b = appendTail b s := by
  simp [pushMakingRoom, makeRoom_of_ready _ h, h]

/-- One `PUSH` of `APPEND` is a run of framer steps and then the `PUSH` (R93). -/
theorem exists_run_pushMakingRoom {s : State} (b : Byte) (hwf : s.cfg.wf = true) :
    ∃ ls, runLabels (ls ++ [.push b]) s = some (pushMakingRoom s b) ∧ (∀ i ∈ ls, i = .accept ∨ i = .drop) ∧
      (pushMakingRoom s b).cfg = s.cfg := by
  obtain ⟨m, hm⟩ := exists_makeRoom_eq_framerSteps (len s) s
  obtain ⟨ls, hls, hrun⟩ := exists_run_framerSteps m s
  obtain ⟨-, -, hcfg, -, -⟩ := framerSteps_inputs m s
  have hr : ready (framerSteps m s) = true := hm ▸ ready_makeRoom hwf le_rfl
  have hpush : pushMakingRoom s b = appendTail b (framerSteps m s) := by simp [pushMakingRoom, hm, hr]
  rw [hpush]
  exact ⟨ls, (runLabels_append_iff _ _ _ _).2 ⟨_, hrun, runLabels_singleton hr (exec_push_of_ready b hr)⟩, hls, hcfg⟩

/-- `APPEND` is a run whose pushed bytes are the sequence (R93). -/
theorem exists_run_append (bs : List Byte) {s : State} (hwf : s.cfg.wf = true) :
    ∃ ls, runLabels ls s = some (bs.foldl pushMakingRoom s) ∧ pushed ls = bs ∧
      ∀ i ∈ ls, i = .accept ∨ i = .drop ∨ ∃ b, i = .push b := by
  induction bs generalizing s with
  | nil => exact ⟨[], rfl, rfl, by simp⟩
  | cons b bs ih =>
    obtain ⟨ls, hrun, hls, hcfg⟩ := exists_run_pushMakingRoom b hwf
    obtain ⟨ls', hrun', hpushed, hls'⟩ := ih (s := pushMakingRoom s b) (by rwa [hcfg])
    have hnone : pushed ls = [] := pushed_eq_nil fun c hc => by simpa using hls _ hc
    refine ⟨ls ++ [.push b] ++ ls', (runLabels_append_iff _ _ _ _).2 ⟨_, hrun, hrun'⟩, ?_, ?_⟩
    · rw [pushed_append, pushed_append, hnone, hpushed]
      rfl
    · refine List.forall_mem_append.2 ⟨List.forall_mem_append.2 ⟨fun i hi => ?_, by simp⟩, hls'⟩
      exact (hls i hi).imp_right .inl

/-- With an unbounded buffer `APPEND` only appends (R93). -/
theorem foldl_pushMakingRoom_of_unbounded (bs : List Byte) {s : State} (h : s.cfg.bufCap = none) :
    bs.foldl pushMakingRoom s = { s with buf := s.buf ++ bs } := by
  induction bs generalizing s with
  | nil => simp
  | cons b bs ih =>
    rw [List.foldl_cons, pushMakingRoom_of_ready b (ready_of_unbounded h), ih (by rwa [appendTail_cfg])]
    simp [appendTail]

end Sys2Proof.Machine
end

section
/-! PROOFS. Runs that push garbage, a valid window and more from an empty buffer (R99): their first framer labels, and
where they stand once those are done. -/

namespace Sys2Proof.Machine

section
variable {g p r : List Byte} {ls : List Instr} {s t : State}

/-- The first framer labels drop the garbage and accept the window, as far as the run takes them. -/
theorem framer_take_garbage (hwf : s.cfg.wf = true) (hs : s.buf = []) (hr : Instr.reset ∉ ls)
    (h : runLabels ls s = some t) (hpushed : pushed ls = g ++ p ++ r) (hp : validWindow p = true) (hg : IsGarbage g p) :
    (ls.filter isFramer).take (g.length + 1) <+: List.replicate g.length .drop ++ [.accept] := by
  have hlabels := runLabels_framerLabels hwf hr h
  rw [hs, List.nil_append, hpushed, framerLabels_garbage r hp hg, List.append_cons] at hlabels
  have hfirst : ls.filter isFramer <+: List.replicate g.length .drop ++ [.accept] ++ framerLabels r :=
    ⟨_, hlabels.symm⟩
  have htake := hfirst.take (g.length + 1)
  rwa [List.take_left' (by simp)] at htake

/-- Where those labels are done, the garbage and the window have been pushed, and `BUF` holds what came behind them. -/
theorem pushed_cut_of_garbage {q : List Byte} (hs : s.buf = []) (hr : Instr.reset ∉ ls) (h : runLabels ls s = some t)
    (hpushed : pushed ls ++ q = g ++ p ++ r) (hp : validWindow p = true)
    (hlabels : ls.filter isFramer = List.replicate g.length .drop ++ [.accept]) :
    pushed ls = g ++ p ++ t.buf ∧ t.buf ++ q = r := by
  obtain ⟨hlen, -⟩ := (validWindow_eq_true_iff p).1 hp
  have hconsumed : consumed ls = (g ++ p).length := by
    rw [← consumed_filter_isFramer, hlabels, consumed_append, consumed_replicate_drop, List.length_append, hlen]
    rfl
  obtain ⟨hbuf, hle⟩ := runLabels_buf hr h
  rw [hs, List.nil_append, hconsumed] at hbuf hle
  have hhead : (pushed ls).take (g ++ p).length = g ++ p := by
    have htake := congrArg (List.take (g ++ p).length) hpushed
    rwa [List.take_left, List.take_append_of_le_length hle] at htake
  have hcut : pushed ls = g ++ p ++ t.buf := by
    have hjoin := List.take_append_drop (g ++ p).length (pushed ls)
    rw [hhead, ← hbuf] at hjoin
    exact hjoin.symm
  rw [hcut, List.append_assoc] at hpushed
  exact ⟨hcut, List.append_cancel_left hpushed⟩

/-- Where those labels are done, the run has dropped the garbage, each byte at its position, and emitted the window's
sample. -/
theorem run_of_garbage (hwf : s.cfg.wf = true) (hs : s.buf = []) (hr : Instr.reset ∉ ls)
    (h : runLabels ls s = some t) (hpushed : pushed ls = g ++ p ++ t.buf) (hp : validWindow p = true)
    (hg : IsGarbage g p) (hlabels : ls.filter isFramer = List.replicate g.length .drop ++ [.accept]) :
    droppedIn 0 ls s = g.mapIdx Dropped.mk ∧ samplesOf t.out = samplesOf s.out ++ [windowSample p] := by
  have hconsumed : consumed ls = g.length + 8 := by
    rw [← consumed_filter_isFramer, hlabels, consumed_append, consumed_replicate_drop]
    rfl
  obtain ⟨ps, hps, hframe⟩ := runLabels_frameFrom 0 hwf hr h
  rw [hs, List.nil_append, hpushed, frameFrom_garbage 0 _ hp hg, hconsumed] at hframe
  obtain ⟨hsamples, hdropped⟩ := Framing.after_inj hframe
  rw [← hdropped, hps, ← hsamples]
  simp

end

end Sys2Proof.Machine
end

section
/-! PROOFS. The obligations of 41_framer.md. -/

namespace Sys2Proof.Machine

/-- Settles O26: fewer than 8 bytes have no window, and with no report pending the block is quiescent. -/
theorem waitChangesNothing : Obligations.WaitChangesNothing := by
  intro s hlt
  refine ⟨fun hp => ?_, (framerStep_eq_none_iff s).2 hlt, ?_, ?_⟩
  · exact (execWait_eq_next_iff s s).2 ⟨(quiescent_eq_true_iff s).2 ⟨hlt, hp⟩, rfl⟩
  · simp [enabled, hlt]
  · simp [enabled, hlt]

/-- Settles O23: the body of `ACCEPT`, the count by whether `CNT_W` is bounded. -/
theorem acceptEmitsCountsAndRemovesEight : Obligations.AcceptEmitsCountsAndRemovesEight := by
  intro b0 b1 b2 b3 b4 b5 b6 b7 rest s hwf hbuf hc
  refine ⟨Config.freeAcc s.fresh, s.fresh + 1, ?_⟩
  rw [exec_accept_of_buf hwf (by simp [hbuf]) (by rw [hbuf]; exact hc), hbuf]
  rcases hw : s.cfg.cntW with _ | w <;> simp [Config.Params.cntMax, hw, satInc, windowSample]

/-- Settles O24: the body of `DROP`. -/
theorem dropRemovesExactlyOneByte : Obligations.DropRemovesExactlyOneByte := by
  intro b0 rest s hbuf hlen hc
  refine ⟨Config.freeAcc s.fresh, s.fresh + 1, ?_⟩
  rw [exec_drop_of_buf (by simp [hbuf]; omega) hc, hbuf]
  rfl

/-- Settles O27: only `TICK` and `REPORT` are left to take. -/
theorem partialPacketIsLeftAlone : Obligations.PartialPacketIsLeftAlone := by
  intro ls s t hlt hp hr h
  induction ls generalizing s with
  | nil =>
    cases h
    simp
  | cons i is ih =>
    obtain ⟨hi, his⟩ := not_or.1 (mt List.mem_cons.2 hr)
    obtain ⟨u, he, hx, hu⟩ := (runLabels_cons_iff i is s t).1 h
    obtain ⟨hkind, hbuf, hacc, hfresh⟩ :=
      exec_enabled_of_lt hlt (Ne.symm hi) (fun b hb => hp b (hb ▸ List.mem_cons_self)) he hx
    obtain ⟨hbuf', hacc', hfresh', ha, hd⟩ :=
      ih u (by rwa [hbuf]) (fun b hb => hp b (List.mem_cons_of_mem i hb)) his hu
    refine ⟨hbuf'.trans hbuf, hacc'.trans hacc, hfresh'.trans hfresh, ?_, ?_⟩ <;>
      rcases hkind with rfl | rfl <;> simpa

/-- Settles O28: each framer step needs 8 bytes, takes one at least and 8 at most. -/
theorem framerStepsAreBounded : Obligations.FramerStepsAreBounded := by
  intro ls s t _ hp h
  refine ⟨length_framer_le hp h, fun hr ht => ?_⟩
  have hle := length_buf_le hp hr h
  omega

/-- Settles O29: the drain is a run, and a run that ends with fewer than 8 bytes has framed its buffer. -/
theorem drainFramesTheBuffer : Obligations.DrainFramesTheBuffer := by
  intro s hwf
  obtain ⟨ls, hls, hrun⟩ := exists_run_framerSteps (len s) s
  have hlt : (framerSteps (len s) s).buf.length < 8 := framerSteps_lt _ s le_rfl
  have hreset : Instr.reset ∉ ls := fun hr => by simpa using hls _ hr
  have hpushed : pushed ls = [] := pushed_eq_nil fun b hb => by simpa using hls _ hb
  obtain ⟨hout, -, hrest⟩ := frameFrom_of_run 0 hwf hreset hrun hlt
  rw [hpushed, List.append_nil] at hout hrest
  obtain ⟨hreports, hcnt⟩ := runLabels_framer_counts hls hrun
  obtain ⟨-, -, -, htpend, -⟩ := framerSteps_inputs (len s) s
  have haccepts : accepts ls = (frame s.buf).samples.length := by
    have hlen := runLabels_samples_length hreset hrun
    rw [hout, List.length_append] at hlen
    exact (Nat.add_left_cancel hlen).symm
  exact ⟨_, ls, rfl, hrun, hls, Nat.lt_succ_iff.1 hlt, hrest, hout, hreports, htpend, haccepts ▸ hcnt⟩

/-- Settles O30: one byte after another, each a run of framer steps and its `PUSH`. -/
theorem appendPushesInOrder : Obligations.AppendPushesInOrder := by
  refine ⟨fun bs s h => congrArg Host.Outcome.next (foldl_pushMakingRoom_of_unbounded bs h), fun bs s hwf => ?_⟩
  obtain ⟨ls, hrun, hpushed, hls⟩ := exists_run_append bs hwf
  exact ⟨_, ls, rfl, hrun, hpushed, hls⟩

/-- Settles O33: a run has framed what it pushed, whatever its schedule; and framing continues. -/
theorem samplesDoNotDependOnTheSchedule : Obligations.SamplesDoNotDependOnTheSchedule := by
  refine ⟨fun ls s t hwf hs hr h hlt => ?_, fun x y => ⟨?_, fun d hd => ?_, (length_frameFrom_rest 0 x).1⟩⟩
  · have hframe := frameFrom_of_run 0 hwf hr h hlt
    rwa [hs, List.nil_append] at hframe
  · have hpos : x.length - (frame x).rest.length + (frame x).rest.length = 0 + x.length := by
      have hle := (length_frameFrom_rest 0 x).2
      rw [Nat.zero_add]
      exact Nat.sub_add_cancel hle
    have happend := frameFrom_append (k := 0) y hpos
    rw [frameFrom_eq_shift (x.length - (frame x).rest.length)] at happend
    exact happend
  · exact (getElem?_of_mem_dropped 0 x d hd).2

/-- Settles O34: the labels and the framing of garbage and packet, at the point where they are done and at the end. -/
theorem resyncDropsExactlyTheGarbage : Obligations.ResyncDropsExactlyTheGarbage := by
  intro g p r ls s t hwf hs hr h hpushed hp hg
  have hfirst := framer_take_garbage hwf hs hr h hpushed hp hg
  refine ⟨hfirst, fun l1 l2 u hcut hu hdone => ?_, fun hlt => ?_⟩
  · subst hcut
    have hr1 : Instr.reset ∉ l1 := fun hmem => hr (List.mem_append_left l2 hmem)
    rw [List.filter_append, ← hdone, List.take_left] at hfirst
    have hlabels := hfirst.eq_of_length (by simp [hdone])
    obtain ⟨hp1, hp2⟩ := pushed_cut_of_garbage hs hr1 hu ((pushed_append l1 l2).symm.trans hpushed) hp hlabels
    obtain ⟨hdropped, hsamples⟩ := run_of_garbage hwf hs hr1 hu hp1 hp hg hlabels
    exact ⟨hlabels, hdropped, hp2, hsamples⟩
  · have hlabels := runLabels_framerLabels hwf hr h
    obtain ⟨hout, -, hrest⟩ := frameFrom_of_run 0 hwf hr h hlt
    rw [hs, List.nil_append, hpushed] at hlabels hout hrest
    rw [framerLabels_garbage r hp hg, framerLabels_of_lt hlt, List.append_nil] at hlabels
    rw [frameFrom_garbage 0 r hp hg, Framing.after_samples, frameFrom_samples] at hout
    rw [frameFrom_garbage 0 r hp hg, Framing.after_rest, frameFrom_rest] at hrest
    refine ⟨?_, hout, hrest⟩
    rw [← hlabels]
    simp

/-- Settles O35: the labels and the framing of the windows. -/
theorem backToBackPacketsAreAllAccepted : Obligations.BackToBackPacketsAreAllAccepted := by
  intro ws ls s t hwf hs hr h hlt hpushed hws
  have hlabels := runLabels_framerLabels hwf hr h
  obtain ⟨hout, -, hrest⟩ := frameFrom_of_run 0 hwf hr h hlt
  rw [hs, List.nil_append, hpushed] at hlabels hout hrest
  rw [framerLabels_flatten hws, framerLabels_of_lt hlt, List.append_nil] at hlabels
  rw [frameFrom_flatten 0 hws] at hout hrest
  exact ⟨hlabels.symm, hrest, hout⟩

/-- Settles O36: sealed data have CRC zero, so that `ACCEPT` is the step selected. -/
theorem sealedDataIsAccepted : Obligations.SealedDataIsAccepted := by
  intro d0 d1 d2 d3 d4 d5 s hwf hbuf
  obtain ⟨a, k, hx⟩ := acceptEmitsCountsAndRemovesEight _ _ _ _ _ _ _ _ [] s hwf hbuf
    (crc16_sealData [d0, d1, d2, d3, d4, d5])
  have he : enabled .accept s = true := enabled_of_exec (.inl rfl) hx
  have hsel : selected s = .accept := (enabled_iff_selected (.inl rfl) s).1 he
  refine ⟨Bool.eq_false_iff.2 fun hd => ?_, _, runLabels_singleton he hx, rfl, rfl⟩
  rw [enabled_iff_selected (.inr (.inl rfl)) s, hsel] at hd
  cases hd

end Sys2Proof.Machine
end

section
/-! PROOFS. Sign extension of a field to `OUT_W` bits (R108), and the decoded pair of a window as what its data bytes
stand for (R109, R110). -/

namespace Sys2Proof.Machine

/-- Sign extension to at least 24 bits keeps the field in the low 24 bits (R108). -/
theorem setWidth_signExtend_of_le {n : Nat} (h : 24 ≤ n) (v : Field24) : (v.signExtend n).setWidth 24 = v := by
  apply BitVec.eq_of_getLsbD_eq
  intro i hi
  have hn : i < n := hi.trans_le h
  rw [BitVec.getLsbD_setWidth, BitVec.getLsbD_signExtend, if_pos hi, decide_eq_true hi, decide_eq_true hn,
    Bool.true_and, Bool.true_and]

/-- Above the field's 24 bits, sign extension repeats bit 23 (R108). -/
theorem getLsbD_signExtend_of_ge {n i : Nat} (v : Field24) (hge : 24 ≤ i) (hlt : i < n) :
    (v.signExtend n).getLsbD i = v.getLsbD 23 := by
  rw [BitVec.getLsbD_signExtend, if_neg (Nat.not_lt.2 hge), decide_eq_true hlt, Bool.true_and,
    BitVec.msb_eq_getLsbD_last]

/-- The integer of an output does not depend on `OUT_W ≥ 24` (R108). -/
theorem sextOut_of_le {n : Nat} (h : 24 ≤ n) (v : Field24) : sextOut n v = v.toInt :=
  BitVec.toInt_signExtend_of_le h

/-- The payload's bits are those of the sign extension, for every `OUT_W` (R23). -/
theorem outBits_sextOut (n : Nat) (v : Field24) : outBits n (sextOut n v) = v.signExtend n :=
  BitVec.ofInt_toInt

/-- The integer of three bytes determines them (R113). -/
theorem signedField_inj {a0 a1 a2 b0 b1 b2 : Byte} :
    signedField a0 a1 a2 = signedField b0 b1 b2 ↔ a0 = b0 ∧ a1 = b1 ∧ a2 = b2 := by
  refine ⟨fun h => ?_, fun ⟨h0, h1, h2⟩ => by rw [h0, h1, h2]⟩
  have hbytes := congrArg fieldBytes h
  rw [fieldBytes_signedField, fieldBytes_signedField] at hbytes
  simpa using hbytes

/-- The primary integer is that of window bytes 0 to 2 (R105). -/
theorem decPri_eq_signedField {n : Nat} (h : 24 ≤ n) (w : Packet) :
    decPri n w = signedField (pktByte w 0) (pktByte w 1) (pktByte w 2) :=
  sextOut_of_le h (ext24 .k0 w)

/-- The secondary integer is that of window bytes 3 to 5 (R106). -/
theorem decSec_eq_signedField {n : Nat} (h : 24 ≤ n) (w : Packet) :
    decSec n w = signedField (pktByte w 3) (pktByte w 4) (pktByte w 5) :=
  sextOut_of_le h (ext24 .k3 w)

end Sys2Proof.Machine
end

section
/-! PROOFS. The obligations of 42_decoder.md. -/

namespace Sys2Proof.Machine

/-- Settles O40: `SAMPLE` appends its event and is nothing else. -/
theorem sampleEmitsOneEvent : Obligations.SampleEmitsOneEvent := fun _ _ _ => rfl

/-- Settles O41: the bits of the sign extension, and its integer, which is that of the field. -/
theorem signExtensionKeepsTheValue : Obligations.SignExtensionKeepsTheValue := by
  intro n v h
  have hrange := inSigned24_sextOut h v
  simp only [inSigned24, Bool.and_eq_true, decide_eq_true_iff] at hrange
  obtain ⟨hlo, hhi⟩ := hrange
  exact ⟨setWidth_signExtend_of_le h v, fun _ => getLsbD_signExtend_of_ge v, sextOut_of_le h v, hlo, hhi,
    outBits_sextOut n v⟩

/-- Settles O42: each decoded integer is that of its three bytes, and determines them. -/
theorem sampleDeterminesTheDataBytes : Obligations.SampleDeterminesTheDataBytes := by
  intro n w w' h
  rw [decPri_eq_signedField h, decPri_eq_signedField h, decSec_eq_signedField h, decSec_eq_signedField h,
    signedField_inj, signedField_inj]
  constructor
  · rintro ⟨⟨h0, h1, h2⟩, h3, h4, h5⟩ i hi
    interval_cases i <;> assumption
  · intro hbytes
    exact ⟨⟨hbytes 0 (by decide), hbytes 1 (by decide), hbytes 2 (by decide)⟩,
      hbytes 3 (by decide), hbytes 4 (by decide), hbytes 5 (by decide)⟩

end Sys2Proof.Machine
end

section
/-! PROOFS. What a run reports (R120, R122, R123): the counts along a run, one label at a time, and runs that report
nothing. -/

namespace Sys2Proof.Machine

/-- `CNT.INC` counts up and stays at the bound (R116, R117). -/
theorem exec_cntInc (s : State) : exec .cntInc s = .next { s with cnt := satInc s.cfg.cntMax s.cnt } := rfl

theorem reportCounts_cons (m : Option Nat) (n : Nat) (i : Instr) (is : List Instr) :
    reportCounts m n (i :: is) = reportCounts m n [i] ++ reportCounts m (acceptsSince n [i]) is := by
  cases i <;> rfl

/-- One transition but `RESET`: `REPORT`, and nothing else, reports, and what it reports is the count (R120). -/
theorem exec_enabled_reports {i : Instr} {s t : State} {n : Nat} (he : enabled i s = true) (hx : exec i s = .next t)
    (hi : i ≠ .reset) (hn : s.cnt = capped s.cfg.cntMax n) :
    reportsOf t.out = reportsOf s.out ++ reportCounts s.cfg.cntMax n [i] := by
  rcases exec_enabled_cases i s t he hx with
    ⟨rfl, -⟩ | ⟨b, rfl, -, rfl⟩ | ⟨rfl, rfl⟩ | ⟨rfl, w, -, -, rfl⟩ | ⟨rfl, w, -, -, rfl⟩ | ⟨rfl, -, -, rfl⟩
  · exact absurd rfl hi
  · exact (List.append_nil _).symm
  · exact (List.append_nil _).symm
  · rw [acceptOp_out, reportsOf_append]
    rfl
  · exact (List.append_nil _).symm
  · rw [reportOp_out, reportsOf_append, hn]
    rfl

/-- R122 along a run without `RESET` that begins `n` packets after a report. -/
theorem runLabels_reports {ls : List Instr} {s t : State} {n : Nat} (hr : Instr.reset ∉ ls)
    (hn : s.cnt = capped s.cfg.cntMax n) (h : runLabels ls s = some t) :
    reportsOf t.out = reportsOf s.out ++ reportCounts s.cfg.cntMax n ls := by
  induction ls generalizing s n with
  | nil =>
    cases h
    exact (List.append_nil _).symm
  | cons i is ih =>
    obtain ⟨hi, his⟩ := not_or.1 (mt List.mem_cons.2 hr)
    obtain ⟨u, he, hx, hu⟩ := (runLabels_cons_iff i is s t).1 h
    have hcfg : u.cfg = s.cfg := exec_enabled_cfg he hx
    have hcnt : u.cnt = capped u.cfg.cntMax (acceptsSince n [i]) := hcfg ▸ exec_enabled_cnt he hx hn
    rw [ih his hcnt hu, exec_enabled_reports he hx (Ne.symm hi) hn, hcfg, reportCounts_cons _ n i is, List.append_assoc]

/-- Without `REPORT` nothing is reported. -/
theorem reportCounts_eq_nil {ls : List Instr} (m : Option Nat) (n : Nat) (h : Instr.report ∉ ls) :
    reportCounts m n ls = [] := by
  induction ls generalizing n with
  | nil => rfl
  | cons i is ih =>
    obtain ⟨hi, his⟩ := not_or.1 (mt List.mem_cons.2 h)
    rw [reportCounts_cons, ih _ his, List.append_nil]
    cases i with
    | report => exact absurd rfl hi
    | _ => rfl

/-- Without `REPORT` and `RESET` every `ACCEPT` counts. -/
theorem acceptsSince_eq_add {ls : List Instr} (n : Nat) (hp : Instr.report ∉ ls) (hr : Instr.reset ∉ ls) :
    acceptsSince n ls = n + accepts ls := by
  induction ls generalizing n with
  | nil => rfl
  | cons i is ih =>
    obtain ⟨hip, hisp⟩ := not_or.1 (mt List.mem_cons.2 hp)
    obtain ⟨hir, hisr⟩ := not_or.1 (mt List.mem_cons.2 hr)
    have hi : acceptsSince n [i] = n + accepts [i] := by
      cases i with
      | report => exact absurd rfl hip
      | reset => exact absurd rfl hir
      | _ => rfl
    rw [acceptsSince_cons, ih _ hisp hisr, hi, Nat.add_assoc, ← accepts_append, List.singleton_append]

/-- A label's report and the count it leaves add up to the count before it and its `ACCEPT` (R123). -/
theorem sum_reportCounts_singleton {i : Instr} {m : Option Nat} {n : Nat} (hi : i ≠ .reset) (hn : atMost n m = true) :
    (reportCounts m n [i]).sum + acceptsSince n [i] = n + accepts [i] := by
  cases i with
  | reset => exact absurd rfl hi
  | report => simp [reportCounts, acceptsSince, accepts, capped_of_atMost hn]
  | accept => exact Nat.zero_add _
  | _ => exact Nat.zero_add n

/-- The reports and the count at the end add up to the count at the start and the `ACCEPT` labels, where the count is
never above the bound (R123). -/
theorem sum_reportCounts {ls : List Instr} {m : Option Nat} {n : Nat} (hr : Instr.reset ∉ ls)
    (h : ∀ l1, l1 <+: ls → atMost (acceptsSince n l1) m = true) :
    (reportCounts m n ls).sum + acceptsSince n ls = n + accepts ls := by
  induction ls generalizing n with
  | nil => exact Nat.zero_add n
  | cons i is ih =>
    obtain ⟨hi, his⟩ := not_or.1 (mt List.mem_cons.2 hr)
    have hfirst := sum_reportCounts_singleton (n := n) (Ne.symm hi) (h [] List.nil_prefix)
    have hrest := ih (n := acceptsSince n [i]) his fun l1 hl => by
      rw [← acceptsSince_cons]
      exact h (i :: l1) (List.cons_prefix_cons.2 ⟨rfl, hl⟩)
    have haccepts : accepts (i :: is) = accepts [i] + accepts is := accepts_append [i] is
    rw [reportCounts_cons m n i is, List.sum_append, acceptsSince_cons n i is, haccepts]
    omega

/-- A `TICK` and the `REPORT` it asks for (R118, R120). -/
theorem runLabels_tick_report {s t : State} (h : runLabels [.tick, .report] s = some t) :
    t.out = s.out ++ [.report s.cnt] ∧ t.cnt = 0 := by
  obtain ⟨u, -, hu, hrest⟩ := (runLabels_cons_iff _ _ _ _).1 h
  obtain ⟨v, -, hv, hnil⟩ := (runLabels_cons_iff _ _ _ _).1 hrest
  cases hu
  cases hnil
  obtain ⟨-, -, rfl⟩ := (execReport_eq_next_iff _ _).1 hv
  exact ⟨rfl, rfl⟩

/-- Without `ACCEPT`, `REPORT` and `RESET` neither the trace nor the count changes (R107, R116, R120). -/
theorem runLabels_out_cnt {ls : List Instr} {s t : State} (ha : Instr.accept ∉ ls) (hp : Instr.report ∉ ls)
    (hr : Instr.reset ∉ ls) (h : runLabels ls s = some t) : t.out = s.out ∧ t.cnt = s.cnt := by
  induction ls generalizing s with
  | nil =>
    cases h
    exact ⟨rfl, rfl⟩
  | cons i is ih =>
    obtain ⟨hia, hisa⟩ := not_or.1 (mt List.mem_cons.2 ha)
    obtain ⟨hip, hisp⟩ := not_or.1 (mt List.mem_cons.2 hp)
    obtain ⟨hir, hisr⟩ := not_or.1 (mt List.mem_cons.2 hr)
    obtain ⟨u, he, hx, hu⟩ := (runLabels_cons_iff i is s t).1 h
    have hrest := ih hisa hisp hisr hu
    rcases exec_enabled_cases i s u he hx with
      ⟨rfl, -⟩ | ⟨b, -, -, rfl⟩ | ⟨-, rfl⟩ | ⟨rfl, -⟩ | ⟨-, w, -, -, rfl⟩ | ⟨rfl, -⟩
    · exact absurd rfl hir
    · exact hrest
    · exact hrest
    · exact absurd rfl hia
    · exact hrest
    · exact absurd rfl hip

/-- A trace holds samples and reports only (R10). -/
theorem length_eq_samples_add_reports (out : List OutEvent) :
    out.length = (samplesOf out).length + (reportsOf out).length := by
  induction out with
  | nil => rfl
  | cons e es ih =>
    cases e with
    | sample p q =>
      change es.length + 1 = (samplesOf es).length + 1 + (reportsOf es).length
      omega
    | report n =>
      change es.length + 1 = (samplesOf es).length + ((reportsOf es).length + 1)
      omega

/-- A number below `2^CNT_W` is in the counter's range, bounded or not (R117). -/
theorem atMost_cntMax_of_lt {p : Config.Params} {n : Nat} (h : ∀ w, p.cntW = some w → n < 2 ^ w) :
    atMost n p.cntMax = true := by
  rcases hw : p.cntW with _ | w
  · simp [Config.Params.cntMax, hw, atMost]
  · have hlt := h w hw
    simp only [Config.Params.cntMax, hw, Option.map_some, atMost, decide_eq_true_iff]
    omega

end Sys2Proof.Machine
end

section
/-! PROOFS. Infinite runs under weak fairness (R164): an internal step that stays enabled until one of some labels is
taken makes sure that one of them is; and what keeps the framer's step and the pending report. -/

namespace Sys2Proof.Machine

/-- With 8 bytes held `ACCEPT` or `DROP` is enabled (R86). -/
theorem exists_enabled_framer {s : State} (h8 : 8 ≤ s.buf.length) :
    ∃ i, (i = .accept ∨ i = .drop) ∧ enabled i s = true := by
  by_cases hv : valid s = true
  · exact ⟨.accept, .inl rfl, by simp [enabled, h8, hv]⟩
  · exact ⟨.drop, .inr rfl, by simp [enabled, h8, hv]⟩

/-- An enabled `ACCEPT` or `DROP` has 8 bytes (R86). -/
theorem length_ge_of_enabled_framer {i : Instr} {s : State} (hi : i = .accept ∨ i = .drop)
    (he : enabled i s = true) : 8 ≤ s.buf.length := by
  rcases hi with rfl | rfl
  · obtain ⟨w, hw, -⟩ := (enabled_accept_iff s).1 he
    exact length_ge_of_window hw
  · obtain ⟨w, hw, -⟩ := (enabled_drop_iff s).1 he
    exact length_ge_of_window hw

/-- The enabled framer step stays enabled until a framer step or `RESET` is taken (R46, R47). -/
theorem enabled_framer_of_exec {i j : Instr} {s t : State} (hi : i = .accept ∨ i = .drop)
    (hj : ¬ (j = .accept ∨ j = .drop ∨ j = .reset)) (hs : enabled i s = true) (he : enabled j s = true)
    (hx : exec j s = .next t) : enabled i t = true := by
  have h8 := length_ge_of_enabled_framer hi hs
  rcases exec_enabled_cases j s t he hx with
    ⟨rfl, -⟩ | ⟨b, -, -, rfl⟩ | ⟨-, rfl⟩ | ⟨rfl, -⟩ | ⟨rfl, -⟩ | ⟨-, -, hlt, -⟩
  · simp at hj
  · rwa [enabled_framer_appendTail b hi h8]
  · rwa [enabled_setTpend (hi.imp_right .inl)]
  · simp at hj
  · simp at hj
  · omega

/-- A pending report stays pending until `REPORT` or `RESET` is taken (R119). -/
theorem tpend_of_exec {j : Instr} {s t : State} (hj : ¬ (j = .report ∨ j = .reset)) (hs : s.tpend = true)
    (he : enabled j s = true) (hx : exec j s = .next t) : t.tpend = true := by
  rcases exec_enabled_cases j s t he hx with
    ⟨rfl, -⟩ | ⟨b, -, -, rfl⟩ | ⟨-, rfl⟩ | ⟨-, w, -, -, rfl⟩ | ⟨-, w, -, -, rfl⟩ | ⟨rfl, -⟩
  · simp at hj
  · exact hs
  · rfl
  · exact hs
  · exact hs
  · simp at hj

section
variable {label : Nat → Option Instr} {st : Nat → State} {n : Nat} {P : State → Prop} {stop : Instr → Prop}

/-- What holds at a point and is kept by every label but those that stop it holds for ever where none of these is
taken. -/
theorem isRun_forall_of_avoids (hrun : isRun label st) (start : P (st n))
    (keep : ∀ j s t, ¬ stop j → P s → enabled j s = true → exec j s = .next t → P t)
    (havoid : ∀ m, n ≤ m → ∀ j, label m = some j → ¬ stop j) : ∀ m, n ≤ m → P (st m) := by
  intro m hm
  induction m, hm using Nat.le_induction with
  | base => exact start
  | succ m hm ih =>
    have hstep := hrun m
    rcases hl : label m with _ | j <;> rw [hl] at hstep
    · rwa [hstep]
    · obtain ⟨he, hx⟩ := hstep
      exact keep j _ _ (havoid m hm j hl) ih he hx

/-- Under weak fairness a label that stops `P` is taken at last, where `P` enables an internal step that stops it
(R164). -/
theorem exists_stop_of_weaklyFair (hrun : isRun label st) (hfair : weaklyFair label st) (start : P (st n))
    (keep : ∀ j s t, ¬ stop j → P s → enabled j s = true → exec j s = .next t → P t)
    {i : Instr} (hi : i ∈ [Instr.accept, .drop, .report]) (hstop : stop i)
    (hen : ∀ m, n ≤ m → P (st m) → enabled i (st m) = true) : ∃ m, n ≤ m ∧ ∃ j, label m = some j ∧ stop j := by
  by_contra hnone
  have havoid : ∀ m, n ≤ m → ∀ j, label m = some j → ¬ stop j := fun m hm j hl hj => hnone ⟨m, hm, j, hl, hj⟩
  have hP := isRun_forall_of_avoids hrun start keep havoid
  obtain ⟨m, hm, hl⟩ := hfair i hi n fun m hm => hen m hm (hP m hm)
  exact havoid m hm i hl hstop

end

end Sys2Proof.Machine
end

section
/-! PROOFS. The obligations of 43_rate_counter.md. -/

namespace Sys2Proof.Machine

/-- Settles O44: by whether `CNT_W` is bounded. -/
theorem cntIncSaturates : Obligations.CntIncSaturates := by
  refine fun s => ⟨fun hw => ?_, fun w hw => ⟨fun hlt => ?_, fun heq => ?_⟩⟩
  · simp [exec_cntInc, Config.Params.cntMax, hw, satInc]
  · simp [exec_cntInc, Config.Params.cntMax, hw, satInc, hlt]
  · simp [exec_cntInc, Config.Params.cntMax, hw, satInc, ← heq]

/-- Settles O45. -/
theorem tickLatchesAndMerges : Obligations.TickLatchesAndMerges := fun s => ⟨exec_tick s, exec_tick_of_pending⟩

/-- Settles O46: the body of `REPORT`. -/
theorem reportEmitsAndClears : Obligations.ReportEmitsAndClears := fun s hp hlt =>
  (execReport_eq_next_iff s _).2 ⟨hp, hlt, rfl⟩

/-- Settles O47: with 8 bytes a framer step is enabled, and so it is selected; the drain leaves fewer, and the pending
bit alone. -/
theorem reportWaitsForTheDrain : Obligations.ReportWaitsForTheDrain := by
  refine fun s => ⟨fun h8 => ⟨?_, ?_⟩, fun hp => ⟨_, rfl, ?_⟩⟩
  · rw [Bool.eq_false_iff, ne_eq, enabled_report_iff]
    rintro ⟨-, hlt⟩
    omega
  · obtain ⟨i, hi, he⟩ := exists_enabled_framer h8
    rw [(enabled_iff_selected (hi.imp_right .inl) s).1 he]
    simpa [isFramer] using hi
  · obtain ⟨-, -, -, htpend, -⟩ := framerSteps_inputs (len s) s
    exact (enabled_report_iff _).2 ⟨htpend.trans hp, framerSteps_lt _ s le_rfl⟩

/-- Settles O48: the counts along a run; then the run in its four parts, of which the first emits the samples and the
third nothing. -/
theorem reportsCountThePacketsSinceTheLast : Obligations.ReportsCountThePacketsSinceTheLast := by
  refine ⟨fun ls s t hr hs h => runLabels_reports hr (capped_of_atMost hs).symm h,
    fun l1 l2 s t hs hout hr1 hp1 hr2 hp2 ha2 hlt h => ?_⟩
  obtain ⟨x, hx, hlast⟩ := (runLabels_append_iff _ _ _ _).1 h
  obtain ⟨v, hv, hsecond⟩ := (runLabels_append_iff _ _ _ _).1 hx
  obtain ⟨u, hfirst, hreport⟩ := (runLabels_append_iff _ _ _ _).1 hv
  obtain ⟨hvout, hvcnt⟩ := runLabels_tick_report hreport
  obtain ⟨hxout, hxcnt⟩ := runLabels_out_cnt ha2 hp2 hr2 hsecond
  obtain ⟨htout, -⟩ := runLabels_tick_report hlast
  have hzero : atMost s.cnt s.cfg.cntMax = true := hs ▸ atMost_zero _
  have hucnt : u.cnt = accepts l1 := by
    rw [runLabels_cnt hzero hfirst, hs, acceptsSince_eq_add 0 hp1 hr1, Nat.zero_add,
      capped_of_atMost (atMost_cntMax_of_lt hlt)]
  have hreports : reportsOf u.out = [] := by
    rw [runLabels_reports hr1 (capped_of_atMost hzero).symm hfirst, reportCounts_eq_nil _ _ hp1, hout]
    rfl
  have hsamples : (samplesOf u.out).length = accepts l1 := by
    rw [runLabels_samples_length hr1 hfirst, hout]
    exact Nat.zero_add _
  refine ⟨u.out, ?_, ?_, hreports⟩
  · rw [htout, hxout, hxcnt, hvout, hvcnt, hucnt, List.append_assoc, List.singleton_append]
  · rw [length_eq_samples_add_reports, hsamples, hreports, List.length_nil, Nat.add_zero]

/-- Settles O49: the counts reported and the count left, where the cap is never reached. -/
theorem reportedSumIsTheNumberOfAccepts : Obligations.ReportedSumIsTheNumberOfAccepts := by
  intro ls s t hr hsat h
  have hs : atMost s.cnt s.cfg.cntMax = true := hsat [] List.nil_prefix
  have hcnt : t.cnt = acceptsSince s.cnt ls := by
    rw [runLabels_cnt hs h, capped_of_atMost (hsat ls List.prefix_rfl)]
  have hsum := sum_reportCounts hr hsat
  rw [runLabels_reports hr (capped_of_atMost hs).symm h, hcnt, List.sum_append]
  omega

/-- Settles O60: the enabled framer step stays enabled, and so does the pending report where fewer than 8 bytes stay
held, until they are taken or `RESET` is. -/
theorem fairRunsTestEveryWindowAndReport : Obligations.FairRunsTestEveryWindowAndReport := by
  intro label st hrun hfair n
  constructor
  · intro h8
    obtain ⟨i, hi, he⟩ := exists_enabled_framer h8
    obtain ⟨m, hm, j, hl, hj⟩ := exists_stop_of_weaklyFair (P := fun s => enabled i s = true)
      (stop := fun j => j = .accept ∨ j = .drop ∨ j = .reset) hrun hfair he
      (fun _ _ _ hj => enabled_framer_of_exec hi hj) (by simpa using hi.imp_right .inl) (hi.imp_right .inl)
      (fun _ _ hen => hen)
    exact ⟨m, hm, by simpa [hl] using hj⟩
  · intro hp hlt
    obtain ⟨m, hm, j, hl, hj⟩ := exists_stop_of_weaklyFair (P := fun s => s.tpend = true)
      (stop := fun j => j = .report ∨ j = .reset) hrun hfair hp
      (fun _ _ _ hj => tpend_of_exec hj) (i := .report) (by simp) (.inl rfl)
      (fun m hm hpend => (enabled_report_iff _).2 ⟨hpend, hlt m hm⟩)
    exact ⟨m, hm, by simpa [hl] using hj⟩

end Sys2Proof.Machine
end

section
/-! PROOFS. The obligation of 60_exceptions.md. -/

namespace Sys2Proof.Machine

/-- A byte offered has a next state whether it is taken or waits (R56). -/
theorem exists_exec_push (b : Byte) (s : State) : ∃ t, exec (.push b) s = .next t := by
  cases hr : ready s with
  | true => exact ⟨_, exec_push_of_ready b hr⟩
  | false => exact ⟨s, exec_push_of_not_ready b hr⟩

/-- Settles O54: a step runs an enabled transition or idles; `RESET` and `TICK` are enabled in every state, and a `PUSH`
that is not enabled leaves the state as it is. -/
theorem everyStepHasANextState : Obligations.EveryStepHasANextState := by
  refine ⟨exists_step, fun s b => ⟨?reset, exists_exec_push b s, ?tick⟩, exec_of_enabled⟩
  case reset => exact exec_of_enabled .reset s rfl
  case tick => exact exec_of_enabled .tick s rfl

end Sys2Proof.Machine
end

section
/-! PROOFS. Idle lines (R157): a stream of one byte repeated whose window is not valid is dropped byte by byte. -/

namespace Sys2Proof.Machine

/-- Where eight of a byte are no valid window, no number of them gives a sample: every window is that one. -/
theorem frameFrom_replicate_samples (k n : Nat) {b : Byte} (hb : crc16 (List.replicate 8 b) ≠ 0x0000#16) :
    (frameFrom k (List.replicate n b)).samples = [] := by
  induction n generalizing k with
  | zero => rw [List.replicate_zero, frameFrom_of_lt k [] (by decide)]
  | succ n ih =>
    by_cases h8 : 8 ≤ n + 1
    · have hwin : (List.replicate (n + 1) b).take 8 = List.replicate 8 b := by
        rw [List.take_replicate, Nat.min_eq_left h8]
      rw [frameFrom_of_invalid k (by rwa [List.length_replicate]) (by rwa [hwin])]
      exact ih (k + 1)
    · rw [frameFrom_of_lt k _ (by rwa [List.length_replicate, ← Nat.not_le])]

/-- A run from an empty buffer emits no sample where the framing of the bytes it pushes has none (R98). -/
theorem samplesOf_eq_of_frame_samples_nil {ls : List Instr} {s t : State} (hwf : s.cfg.wf = true) (hs : s.buf = [])
    (hr : Instr.reset ∉ ls) (h : runLabels ls s = some t) (hnil : (frame (pushed ls)).samples = []) :
    samplesOf t.out = samplesOf s.out := by
  obtain ⟨ps, hps, hframe⟩ := runLabels_frameFrom 0 hwf hr h
  rw [hs, List.nil_append] at hframe
  have hsamples : ps ++ (frameFrom (0 + consumed ls) t.buf).samples = [] :=
    (congrArg Framing.samples hframe).symm.trans hnil
  rw [hps, (List.append_eq_nil_iff.1 hsamples).1, List.append_nil]

/-- A run whose samples stay as they are has no `ACCEPT` (R88). -/
theorem accept_not_mem_of_samplesOf_eq {ls : List Instr} {s t : State} (hr : Instr.reset ∉ ls)
    (h : runLabels ls s = some t) (hsame : samplesOf t.out = samplesOf s.out) : Instr.accept ∉ ls := by
  have hcount := runLabels_samples_length hr h
  rw [hsame] at hcount
  exact List.count_eq_zero.1 (Nat.left_eq_add.1 hcount)

theorem crc16_eight_zeros : crc16 (List.replicate 8 0x00#8) = 0x0B40#16 := by decide +kernel

theorem crc16_eight_ones : crc16 (List.replicate 8 0xFF#8) = 0x8F01#16 := by decide +kernel

end Sys2Proof.Machine
end

section
/-! PROOFS. The obligations of 70_reset_and_hazards.md. -/

namespace Sys2Proof.Machine

/-- Settles O37: neither idle window is valid, so that the framing of the line has no sample and the run no `ACCEPT`. -/
theorem idleLinesYieldNoSample : Obligations.IdleLinesYieldNoSample := by
  refine ⟨crc16_eight_zeros, crc16_eight_ones, fun n b ls s t hwf hs hr hb hpushed h => ?_⟩
  have hcrc : crc16 (List.replicate 8 b) ≠ 0x0000#16 := by
    rcases hb with rfl | rfl
    · exact crc16_eight_zeros.trans_ne (by decide)
    · exact crc16_eight_ones.trans_ne (by decide)
  have hnil : (frame (pushed ls)).samples = [] := by
    rw [hpushed]
    exact frameFrom_replicate_samples 0 n hcrc
  have hsame := samplesOf_eq_of_frame_samples_nil hwf hs hr h hnil
  exact ⟨accept_not_mem_of_samplesOf_eq hr h hsame, hsame⟩

/-- Settles O1: the fields of the reset state; its empty buffer enables no framer step and leaves room. -/
theorem resetStateIsAsTheSpecSays : Obligations.ResetStateIsAsTheSpecSays :=
  ⟨rfl, rfl, rfl, rfl, rfl, by decide, ready_of_lt (by decide) (by decide)⟩

/-- Settles O2: the flags are those of an empty buffer, and `rst` is the first bit that each reading of a word tests. -/
theorem resetEventClearsTheBlock : Obligations.ResetEventClearsTheBlock := by
  refine fun s => ⟨rfl, fun t ht => ?_, fun w hrst => ?_⟩
  · cases ht
    have hlt : (resetOp s).buf.length < 8 := by simp
    exact ⟨(have8_eq_false_iff _).2 hlt, valid_of_lt _ hlt, fun hwf => ready_of_lt hwf hlt⟩
  · have hr : Ev.rst w = true := hrst
    refine ⟨?_, ?_, ?_⟩
    · rw [decodeEv_eq, if_pos hr]
    · rw [evRest_eq, hr]
      rfl
    · rw [cycle, if_pos hr]

end Sys2Proof.Machine
end
